-- ==== Sys2Proof/Word.lean ====
section
/-!
DEFINITION. The word types of the CCS-1B core (spec/00_scope.md R6, R7): registers, pc, TP, addresses and
instruction words are 32-bit vectors; a memory cell is a byte; a register index is 0 to 31.
-/
namespace Sys2Proof

/-- `Bits32` of 00 R7: `XLEN` = 32 (00 R6). -/
abbrev Word := BitVec 32

/-- One byte of memory (10 R33). -/
abbrev Byte := BitVec 8

/-- A register index, 0 to 31: `NREG` = 32 (00 R6). -/
abbrev Reg := Fin 32

/-- `uint(v)` of 00 R7. -/
abbrev uint (v : Word) : Nat := v.toNat

/-- `sint(v)` of 00 R7. -/
abbrev sint (v : Word) : Int := v.toInt

end Sys2Proof
end

