-- ==== Sys2Proof/Config.lean ====
section
/-!
DEFINITION. The implementation parameters of spec/00_scope.md R6. Those the spec calls the named arguments of a model
(spec/92_eei_decisions.md, last paragraph) are the fields of `Config`; the register roles and service numbers are constants.
-/
namespace Sys2Proof

/-- What a build does with an operation the source declares and leaves unimplemented (00 R6, 92 D11, D12). -/
inductive ImplMode where
  /-- The operation has the effect the spec gives it. -/
  | implement
  /-- The operation raises UnimplementedOpcode. -/
  | fault
deriving DecidableEq, Repr

/-- The parameters of 00 R6 that a build chooses. -/
structure Config where
  /-- `MEM_SIZE`: the bytes of memory (92 D2). -/
  memSize : Nat
  /-- `SP_INIT`: the reset value of `x[SP_REG]`. -/
  spInit : Word
  /-- `R0_HARDWIRED`: `x[0]` reads 0 and discards writes (92 D1). -/
  r0Hardwired : Bool
  /-- `STRICT_DECODE`: DecodeAnomaly and UnknownSyscall are fatal (92 D13, D14). -/
  strictDecode : Bool
  /-- `LHU_MODE` (92 D11). -/
  lhuMode : ImplMode
  /-- `PRINT_STRING_MODE` (92 D12). -/
  printStringMode : ImplMode
deriving DecidableEq, Repr

/-- The values this hardware takes by default (00 R6). -/
def Config.default : Config where
  memSize := 8192
  spInit := 0x00002000#32
  r0Hardwired := false
  strictDecode := false
  lhuMode := .implement
  printStringMode := .fault

/-- The constraint of 00 R6 on the parameters: 0 < `MEM_SIZE` ≤ 2^31. -/
abbrev Config.WellFormed (c : Config) : Prop := 0 < c.memSize ∧ c.memSize ≤ 2 ^ 31

/-- `SP_REG` (00 R6). -/
def spReg : Reg := 29
/-- `LINK_REG` (00 R6). -/
def linkReg : Reg := 31
/-- `SYSCALL_REG` (00 R6). -/
def syscallReg : Reg := 2
/-- `ARG_REG` (00 R6). -/
def argReg : Reg := 4

/-- Service 1, print-integer (43 R210). -/
def svcPrintInt : Word := 0x00000001#32
/-- Service 4, print-string (43 R210). -/
def svcPrintString : Word := 0x00000004#32
/-- Service 5, read-integer (43 R210). -/
def svcReadInt : Word := 0x00000005#32
/-- Service 10, exit (43 R210). -/
def svcExit : Word := 0x0000000A#32

end Sys2Proof
end

