-- ==== Sys2Proof/Syntax.lean ====
section
/-!
DEFINITION. The instruction set: one constructor of `Instr` per row of spec/opcode_table.json, operands in the assembler
order of spec/30_encoding.md R95 (destination first), and the decoder's output bundle of 30 R97.
The last argument `ign` of a constructor holds the fields the instruction ignores (30 R91). They have no effect, but they are
part of the word that a fault record or an anomaly event carries (10 R29, R32), so decoding keeps them.
-/
namespace Sys2Proof

/-- The 24 instructions of 30 R87, R88, R89. -/
inductive Instr where
  /-- 40 R120. `ign` is the rs field. -/
  | sll (rd rt : Reg) (shamt : Nat) (ign : BitVec 5)
  /-- 40 R121. `ign` is the rs field. -/
  | sra (rd rt : Reg) (shamt : Nat) (ign : BitVec 5)
  /-- 40 R122. `ign` is rt, rd and shamt: bits 20:6. -/
  | jr (rs : Reg) (ign : BitVec 15)
  /-- 40 R131. `ign` is bits 25:6. -/
  | syscall (ign : BitVec 20)
  /-- 40 R123. `ign` is the shamt field, here and in the seven below. -/
  | add (rd rs rt : Reg) (ign : BitVec 5)
  /-- 40 R124. -/
  | addu (rd rs rt : Reg) (ign : BitVec 5)
  /-- 40 R125. -/
  | sub (rd rs rt : Reg) (ign : BitVec 5)
  /-- 40 R126. -/
  | and (rd rs rt : Reg) (ign : BitVec 5)
  /-- 40 R127. -/
  | or (rd rs rt : Reg) (ign : BitVec 5)
  /-- 40 R128. -/
  | nor (rd rs rt : Reg) (ign : BitVec 5)
  /-- 40 R129. -/
  | slt (rd rs rt : Reg) (ign : BitVec 5)
  /-- 40 R130. -/
  | sltu (rd rs rt : Reg) (ign : BitVec 5)
  /-- 41 R160. -/
  | beq (rs rt : Reg) (imm : BitVec 16)
  /-- 41 R161. -/
  | bne (rs rt : Reg) (imm : BitVec 16)
  /-- 41 R162. -/
  | addi (rt rs : Reg) (imm : BitVec 16)
  /-- 41 R163. -/
  | slti (rt rs : Reg) (imm : BitVec 16)
  /-- 41 R164. -/
  | andi (rt rs : Reg) (imm : BitVec 16)
  /-- 41 R165. -/
  | ori (rt rs : Reg) (imm : BitVec 16)
  /-- 41 R166. `ign` is the rs field. -/
  | lui (rt : Reg) (imm : BitVec 16) (ign : BitVec 5)
  /-- 41 R167. -/
  | lw (rt : Reg) (imm : BitVec 16) (rs : Reg)
  /-- 41 R168. -/
  | lhu (rt : Reg) (imm : BitVec 16) (rs : Reg)
  /-- 41 R169. -/
  | sw (rt : Reg) (imm : BitVec 16) (rs : Reg)
  /-- 42 R200. -/
  | j (target : BitVec 26)
  /-- 42 R201. -/
  | jal (target : BitVec 26)
deriving DecidableEq, Repr

/-- The three formats (30 R82 to R85). -/
inductive Fmt where
  | R | I | J
deriving DecidableEq, Repr

/-- The operation a word selects (30 R97; one `BEQ`, 90 C14). -/
inductive Op where
  | SLL | SRA | JR | SYSCALL | ADD | ADDU | SUB | AND | OR | NOR | SLT | SLTU
  | BEQ | BNE | ADDI | SLTI | ANDI | ORI | LUI | LW | LHU | SW | J | JAL | UNRECOGNIZED
deriving DecidableEq, Repr

/-- The instruction_decoder's output bundle (30 R97): every field, whatever the format. -/
structure Decoded where
  fmt : Fmt
  opcode : BitVec 6
  rs : BitVec 5
  rt : BitVec 5
  rd : BitVec 5
  shamt : BitVec 5
  funct : BitVec 6
  imm16 : BitVec 16
  simm : Word
  target : Word
  op : Op
deriving DecidableEq, Repr

/-- What decoding a word gives: an instruction, or a rejection by name (40 R132, 41 R170). -/
inductive DecodeResult where
  /-- One of the 24 instructions. -/
  | instr (i : Instr)
  /-- Opcode 0x00 with a funct outside 30 R87 (40 R132). -/
  | unrecognizedFunct
  /-- An opcode outside 30 R87 to R89 (41 R170). -/
  | unrecognizedOpcode
deriving DecidableEq, Repr

end Sys2Proof
end

