-- ==== Sys2Proof/WellFormed.lean ====
section
/-!
DEFINITION. When an instruction can be encoded, and when a decoder bundle is one that some word gives.
Register indices, immediates and targets are bounded by their types; the one operand bounded by a check is the shift count.
-/
namespace Sys2Proof

/-- An instruction of the set: "A shift of 32 or more cannot be encoded" (40 R120; the count is 0 to 31, 30 R83).
Every other operand is bounded by its type. -/
def Instr.wellFormed : Instr → Bool
  | .sll _ _ shamt _ => decide (shamt < 32)
  | .sra _ _ shamt _ => decide (shamt < 32)
  | .jr _ _ => true
  | .syscall _ => true
  | .add _ _ _ _ => true
  | .addu _ _ _ _ => true
  | .sub _ _ _ _ => true
  | .and _ _ _ _ => true
  | .or _ _ _ _ => true
  | .nor _ _ _ _ => true
  | .slt _ _ _ _ => true
  | .sltu _ _ _ _ => true
  | .beq _ _ _ => true
  | .bne _ _ _ => true
  | .addi _ _ _ => true
  | .slti _ _ _ => true
  | .andi _ _ _ => true
  | .ori _ _ _ => true
  | .lui _ _ _ => true
  | .lw _ _ _ => true
  | .lhu _ _ _ => true
  | .sw _ _ _ => true
  | .j _ => true
  | .jal _ => true

/-- The format agrees with the opcode (30 R82). -/
def Decoded.fmtOk (d : Decoded) : Bool :=
  decide (d.fmt = if d.opcode = 0x00#6 then Fmt.R else if d.opcode = 0x02#6 ∨ d.opcode = 0x03#6 then Fmt.J else Fmt.I)

/-- The R and I fields read the same low half: imm16 is rd, shamt and funct side by side (30 R83, R84). -/
def Decoded.lowHalfOk (d : Decoded) : Bool := decide (d.imm16 = d.rd ++ d.shamt ++ d.funct)

/-- `simm` is the sign extension of imm16 (30 R86). -/
def Decoded.simmOk (d : Decoded) : Bool := decide (d.simm = d.imm16.signExtend 32)

/-- `target` is the zero extension of bits 25:0 (30 R85, R86). -/
def Decoded.targetOk (d : Decoded) : Bool := decide (d.target = (d.rs ++ d.rt ++ d.imm16).setWidth 32)

/-- A bundle whose fields agree with each other as those of one word do (30 R97). -/
def Decoded.wellFormed (d : Decoded) : Bool := d.fmtOk && d.lowHalfOk && d.simmOk && d.targetOk

end Sys2Proof
end

