-- ==== Sys2Proof/Decode.lean ====
section
/-!
DEFINITION. The instruction_decoder and the encoders (spec/30_encoding.md). Decoding is total: a word gives one of the 24
instructions or a rejection by name. The opcode table is spec/opcode_table.json, row for row.
-/
namespace Sys2Proof

/-! ### Fields and operands -/

/-- `word[31:26]` (30 R81). -/
def opcodeField (w : Word) : BitVec 6 := w.extractLsb' 26 6
/-- `word[25:21]` (30 R83, R84). -/
def rsField (w : Word) : BitVec 5 := w.extractLsb' 21 5
/-- `word[20:16]` (30 R83, R84). -/
def rtField (w : Word) : BitVec 5 := w.extractLsb' 16 5
/-- `word[15:11]` (30 R83). -/
def rdField (w : Word) : BitVec 5 := w.extractLsb' 11 5
/-- `word[10:6]` (30 R83). -/
def shamtField (w : Word) : BitVec 5 := w.extractLsb' 6 5
/-- `word[5:0]` (30 R83). -/
def functField (w : Word) : BitVec 6 := w.extractLsb' 0 6
/-- `word[15:0]` (30 R84). -/
def immField (w : Word) : BitVec 16 := w.extractLsb' 0 16
/-- `word[25:0]` (30 R85). -/
def targetField (w : Word) : BitVec 26 := w.extractLsb' 0 26

/-- `sext_32` of a 16-bit value (00 R8). -/
def sext32 (v : BitVec 16) : Word := v.signExtend 32

/-- `zext_32` of a narrower value (00 R8). -/
def zext32 {w : Nat} (v : BitVec w) : Word := v.setWidth 32

/-- The register a 5-bit field names (30 R83). -/
def regOf (f : BitVec 5) : Reg := f.toFin

/-- The 5-bit field that names a register. -/
def fieldOf (r : Reg) : BitVec 5 := BitVec.ofFin r

/-! ### Decoding -/

/-- The format by the opcode (30 R82). -/
def fmtOf (opcode : BitVec 6) : Fmt :=
  if opcode = 0x00#6 then .R else if opcode = 0x02#6 ∨ opcode = 0x03#6 then .J else .I

/-- The R handler's operation, by funct alone (30 R87). -/
def opOfFunct (f : BitVec 6) : Op :=
  if f = 0x00#6 then .SLL
  else if f = 0x03#6 then .SRA
  else if f = 0x08#6 then .JR
  else if f = 0x0C#6 then .SYSCALL
  else if f = 0x20#6 then .ADD
  else if f = 0x21#6 then .ADDU
  else if f = 0x22#6 then .SUB
  else if f = 0x24#6 then .AND
  else if f = 0x25#6 then .OR
  else if f = 0x27#6 then .NOR
  else if f = 0x2A#6 then .SLT
  else if f = 0x2B#6 then .SLTU
  else .UNRECOGNIZED

/-- The I handler's operation, by opcode alone (30 R88). -/
def opOfImmOpcode (o : BitVec 6) : Op :=
  if o = 0x04#6 then .BEQ
  else if o = 0x05#6 then .BNE
  else if o = 0x08#6 then .ADDI
  else if o = 0x0A#6 then .SLTI
  else if o = 0x0C#6 then .ANDI
  else if o = 0x0D#6 then .ORI
  else if o = 0x0F#6 then .LUI
  else if o = 0x23#6 then .LW
  else if o = 0x25#6 then .LHU
  else if o = 0x2B#6 then .SW
  else .UNRECOGNIZED

/-- The J handler's operation (30 R89). Its last case is the unreachable one of 42 R202. -/
def opOfJumpOpcode (o : BitVec 6) : Op :=
  if o = 0x02#6 then .J
  else if o = 0x03#6 then .JAL
  else .UNRECOGNIZED

/-- Dispatch (30 R82): the operation a word selects. -/
def opOf (w : Word) : Op :=
  match fmtOf (opcodeField w) with
  | .R => opOfFunct (functField w)
  | .J => opOfJumpOpcode (opcodeField w)
  | .I => opOfImmOpcode (opcodeField w)

/-- The decoder's bundle of a word (30 R97): every field is extracted whatever the format. -/
def decodeBundle (w : Word) : Decoded where
  fmt := fmtOf (opcodeField w)
  opcode := opcodeField w
  rs := rsField w
  rt := rtField w
  rd := rdField w
  shamt := shamtField w
  funct := functField w
  imm16 := immField w
  simm := sext32 (immField w)
  target := zext32 (targetField w)
  op := opOf w

/-- The instruction of a bundle. Ignored fields go into `ign` (30 R91). -/
def instrOfBundle (d : Decoded) : DecodeResult :=
  let rs := regOf d.rs
  let rt := regOf d.rt
  let rd := regOf d.rd
  match d.op with
  | .SLL => .instr (.sll rd rt d.shamt.toNat d.rs)
  | .SRA => .instr (.sra rd rt d.shamt.toNat d.rs)
  | .JR => .instr (.jr rs (d.rt ++ d.rd ++ d.shamt))
  | .SYSCALL => .instr (.syscall (d.rs ++ d.rt ++ d.rd ++ d.shamt))
  | .ADD => .instr (.add rd rs rt d.shamt)
  | .ADDU => .instr (.addu rd rs rt d.shamt)
  | .SUB => .instr (.sub rd rs rt d.shamt)
  | .AND => .instr (.and rd rs rt d.shamt)
  | .OR => .instr (.or rd rs rt d.shamt)
  | .NOR => .instr (.nor rd rs rt d.shamt)
  | .SLT => .instr (.slt rd rs rt d.shamt)
  | .SLTU => .instr (.sltu rd rs rt d.shamt)
  | .BEQ => .instr (.beq rs rt d.imm16)
  | .BNE => .instr (.bne rs rt d.imm16)
  | .ADDI => .instr (.addi rt rs d.imm16)
  | .SLTI => .instr (.slti rt rs d.imm16)
  | .ANDI => .instr (.andi rt rs d.imm16)
  | .ORI => .instr (.ori rt rs d.imm16)
  | .LUI => .instr (.lui rt d.imm16 d.rs)
  | .LW => .instr (.lw rt d.imm16 rs)
  | .LHU => .instr (.lhu rt d.imm16 rs)
  | .SW => .instr (.sw rt d.imm16 rs)
  | .J => .instr (.j (d.rs ++ d.rt ++ d.imm16))
  | .JAL => .instr (.jal (d.rs ++ d.rt ++ d.imm16))
  | .UNRECOGNIZED => match d.fmt with
    | .R => .unrecognizedFunct
    | .I => .unrecognizedOpcode
    | .J => .unrecognizedOpcode

/-- `Decode(word)` (70 R283, 30 R97): total. -/
def decode (w : Word) : DecodeResult := instrOfBundle (decodeBundle w)

/-- The word four bytes make in memory order, first byte most significant (20 R52). -/
def wordOfBytes (b0 b1 b2 b3 : Byte) : Word := b0 ++ b1 ++ b2 ++ b3

/-- Byte `k` of a word in memory order, 0 the most significant (20 R52). -/
def byteOfWord (w : Word) (k : Nat) : Byte := w.extractLsb' (24 - 8 * k) 8

/-- Decoding from a stream of bytes: the first four bytes give a word, the rest is left over. Fewer than four bytes hold no
instruction, since every instruction is one 32-bit word (30 R80). -/
def decodeBytes : List Byte → Option (DecodeResult × List Byte)
  | b0 :: b1 :: b2 :: b3 :: rest => some (decode (wordOfBytes b0 b1 b2 b3), rest)
  | _ => none

/-- The word of an instruction whose low `nbits` bits are those of `w` and whose other bits are 0. -/
def tableWord (nbits w : Nat) : Word := BitVec.ofNat 32 (w % 2 ^ nbits)

/-- A word as the hardware stores it, lowest address first (20 R52, 70 R281). -/
def bytesOfWord (w : Word) : List Byte := [byteOfWord w 0, byteOfWord w 1, byteOfWord w 2, byteOfWord w 3]

/-- The instruction the decoder reads from a table word stored as the hardware stores it. -/
def decodeTableWord (nbits w : Nat) : Option Instr :=
  match decodeBytes (bytesOfWord (tableWord nbits w)) with
  | some (.instr i, _) => some i
  | some (.unrecognizedFunct, _) => none
  | some (.unrecognizedOpcode, _) => none
  | none => none

/-! ### Encoding -/

/-- `encR` of 30 R98: opcode 0x00 and the fields of 30 R83 side by side. -/
def encR (rs rt rd shamt : BitVec 5) (funct : BitVec 6) : Word := 0x00#6 ++ rs ++ rt ++ rd ++ shamt ++ funct

/-- `encI` of 30 R98: the fields of 30 R84 side by side. -/
def encI (opcode : BitVec 6) (rs rt : BitVec 5) (imm16 : BitVec 16) : Word := opcode ++ rs ++ rt ++ imm16

/-- `encJ` of 30 R98: the fields of 30 R85 side by side. -/
def encJ (opcode : BitVec 6) (target26 : BitVec 26) : Word := opcode ++ target26

/-- A three-register word (30 R95): destination first in the assembler, `rs`, `rt`, `rd` in the word. -/
def encR3 (rd rs rt : Reg) (ign : BitVec 5) (funct : BitVec 6) : Word :=
  encR (fieldOf rs) (fieldOf rt) (fieldOf rd) ign funct

/-- The word of an instruction, from the tables of 30 R87, R88, R89. A shift count that no word holds is cut to five bits. -/
def encode : Instr → Word
  | .sll rd rt shamt ign => encR ign (fieldOf rt) (fieldOf rd) (BitVec.ofNat 5 shamt) 0x00#6
  | .sra rd rt shamt ign => encR ign (fieldOf rt) (fieldOf rd) (BitVec.ofNat 5 shamt) 0x03#6
  | .jr rs ign => encR (fieldOf rs) (ign.extractLsb' 10 5) (ign.extractLsb' 5 5) (ign.extractLsb' 0 5) 0x08#6
  | .syscall ign =>
      encR (ign.extractLsb' 15 5) (ign.extractLsb' 10 5) (ign.extractLsb' 5 5) (ign.extractLsb' 0 5) 0x0C#6
  | .add rd rs rt ign => encR3 rd rs rt ign 0x20#6
  | .addu rd rs rt ign => encR3 rd rs rt ign 0x21#6
  | .sub rd rs rt ign => encR3 rd rs rt ign 0x22#6
  | .and rd rs rt ign => encR3 rd rs rt ign 0x24#6
  | .or rd rs rt ign => encR3 rd rs rt ign 0x25#6
  | .nor rd rs rt ign => encR3 rd rs rt ign 0x27#6
  | .slt rd rs rt ign => encR3 rd rs rt ign 0x2A#6
  | .sltu rd rs rt ign => encR3 rd rs rt ign 0x2B#6
  | .beq rs rt imm => encI 0x04#6 (fieldOf rs) (fieldOf rt) imm
  | .bne rs rt imm => encI 0x05#6 (fieldOf rs) (fieldOf rt) imm
  | .addi rt rs imm => encI 0x08#6 (fieldOf rs) (fieldOf rt) imm
  | .slti rt rs imm => encI 0x0A#6 (fieldOf rs) (fieldOf rt) imm
  | .andi rt rs imm => encI 0x0C#6 (fieldOf rs) (fieldOf rt) imm
  | .ori rt rs imm => encI 0x0D#6 (fieldOf rs) (fieldOf rt) imm
  | .lui rt imm ign => encI 0x0F#6 ign (fieldOf rt) imm
  | .lw rt imm rs => encI 0x23#6 (fieldOf rs) (fieldOf rt) imm
  | .lhu rt imm rs => encI 0x25#6 (fieldOf rs) (fieldOf rt) imm
  | .sw rt imm rs => encI 0x2B#6 (fieldOf rs) (fieldOf rt) imm
  | .j target => encJ 0x02#6 target
  | .jal target => encJ 0x03#6 target

/-! ### The opcode table -/

/-- A row of spec/opcode_table.json: a word is the row's when `word &&& mask = pattern`. -/
structure OpcodeRow where
  op : Op
  mask : Word
  pattern : Word
deriving DecidableEq, Repr

/-- The R rows of spec/opcode_table.json. -/
def opcodeRowsR : List OpcodeRow :=
  [⟨.SLL, 0xFC00003F#32, 0x00000000#32⟩, ⟨.SRA, 0xFC00003F#32, 0x00000003#32⟩, ⟨.JR, 0xFC00003F#32, 0x00000008#32⟩,
   ⟨.SYSCALL, 0xFC00003F#32, 0x0000000C#32⟩, ⟨.ADD, 0xFC00003F#32, 0x00000020#32⟩, ⟨.ADDU, 0xFC00003F#32, 0x00000021#32⟩,
   ⟨.SUB, 0xFC00003F#32, 0x00000022#32⟩, ⟨.AND, 0xFC00003F#32, 0x00000024#32⟩, ⟨.OR, 0xFC00003F#32, 0x00000025#32⟩,
   ⟨.NOR, 0xFC00003F#32, 0x00000027#32⟩, ⟨.SLT, 0xFC00003F#32, 0x0000002A#32⟩, ⟨.SLTU, 0xFC00003F#32, 0x0000002B#32⟩]

/-- The I and J rows of spec/opcode_table.json. -/
def opcodeRowsIJ : List OpcodeRow :=
  [⟨.BEQ, 0xFC000000#32, 0x10000000#32⟩, ⟨.BNE, 0xFC000000#32, 0x14000000#32⟩, ⟨.ADDI, 0xFC000000#32, 0x20000000#32⟩,
   ⟨.SLTI, 0xFC000000#32, 0x28000000#32⟩, ⟨.ANDI, 0xFC000000#32, 0x30000000#32⟩, ⟨.ORI, 0xFC000000#32, 0x34000000#32⟩,
   ⟨.LUI, 0xFC000000#32, 0x3C000000#32⟩, ⟨.LW, 0xFC000000#32, 0x8C000000#32⟩, ⟨.LHU, 0xFC000000#32, 0x94000000#32⟩,
   ⟨.SW, 0xFC000000#32, 0xAC000000#32⟩, ⟨.J, 0xFC000000#32, 0x08000000#32⟩, ⟨.JAL, 0xFC000000#32, 0x0C000000#32⟩]

/-- spec/opcode_table.json, row for row. -/
def opcodeTable : List OpcodeRow := opcodeRowsR ++ opcodeRowsIJ

/-- A word belongs to a row. -/
def OpcodeRow.holds (r : OpcodeRow) (w : Word) : Bool := decide (w &&& r.mask = r.pattern)

/-- The operation of an instruction (30 R97). -/
def Instr.op : Instr → Op
  | .sll _ _ _ _ => .SLL
  | .sra _ _ _ _ => .SRA
  | .jr _ _ => .JR
  | .syscall _ => .SYSCALL
  | .add _ _ _ _ => .ADD
  | .addu _ _ _ _ => .ADDU
  | .sub _ _ _ _ => .SUB
  | .and _ _ _ _ => .AND
  | .or _ _ _ _ => .OR
  | .nor _ _ _ _ => .NOR
  | .slt _ _ _ _ => .SLT
  | .sltu _ _ _ _ => .SLTU
  | .beq _ _ _ => .BEQ
  | .bne _ _ _ => .BNE
  | .addi _ _ _ => .ADDI
  | .slti _ _ _ => .SLTI
  | .andi _ _ _ => .ANDI
  | .ori _ _ _ => .ORI
  | .lui _ _ _ => .LUI
  | .lw _ _ _ => .LW
  | .lhu _ _ _ => .LHU
  | .sw _ _ _ => .SW
  | .j _ => .J
  | .jal _ => .JAL

end Sys2Proof
end

