-- ==== Sys2Proof/Machine/State.lean ====
section
/-!
DEFINITION. The machine's state as plain data: the whole of spec/10_state.md, the build's configuration and the host's
answers; the reasons a step can stop; and the state right after reset (10 R34).
-/
namespace Sys2Proof.Machine

/-- Memory as (address, byte) cells: addresses strictly rising, no cell equal to what an unlisted address reads as. -/
abbrev Memory := List Host.Cell

/-- What an address no cell lists reads as: memory is zero at reset (10 R33, R34). -/
def Memory.unlisted : Byte := 0x00#8

/-- The sub-kind of a MemoryFault (10 R29). -/
inductive AccessKind where
  | fetch | load | store
deriving DecidableEq, Repr

/-- The closed list of error kinds (60 R241). -/
inductive ErrorKind where
  | memoryFault | decodeAnomaly | unimplementedOpcode | inputFault | unknownSyscall
deriving DecidableEq, Repr

/-- The numeric code of a kind (60 R241, 92 D15). -/
def ErrorKind.code : ErrorKind → Nat
  | .memoryFault => 1
  | .decodeAnomaly => 2
  | .unimplementedOpcode => 3
  | .inputFault => 4
  | .unknownSyscall => 5

/-- The fault record (10 R29). `error` stands for the field `code`; its number is `ErrorKind.code`. -/
structure FaultRecord where
  error : ErrorKind
  kind : Option AccessKind
  faultPc : Word
  word : Option Word
  addr : Option Word
  size : Option Nat
  value : Option Word
deriving DecidableEq, Repr

/-- The run state (10 R28). -/
inductive RunState where
  | running
  | halted
  | faulted (rec : FaultRecord)
deriving DecidableEq, Repr

/-- The kinds of recoverable anomaly (60 R243, R246). -/
inductive AnomalyKind where
  | decodeAnomaly | unknownSyscall
deriving DecidableEq, Repr

/-- A host event (10 R32). -/
inductive Event where
  /-- 43 R211: the signed value. -/
  | printInt (v : Int)
  /-- 43 R212: the bytes before the NUL. -/
  | printString (bytes : List Byte)
  /-- 43 R213: the value written to `x[2]`. -/
  | readInt (v : Word)
  /-- 60 R243, R246. -/
  | anomaly (kind : AnomalyKind) (pc word : Word) (value : Option Word)
  /-- Emitted once, when the core enters Halted or Faulted (10 R32). -/
  | stop (run : RunState)
deriving DecidableEq, Repr

/-- The host's answer to a read-integer request (43 R213). -/
inductive HostAnswer where
  | value (v : Word)
  | noValue
deriving DecidableEq, Repr

/-- The whole state of the core (10, head of file), with the configuration of the build (00 R6) and the answers the host
gives. The last two are the model's own fields: no step writes `cfg`, and a completed read takes one answer off `input`. -/
structure State where
  /-- The parameters of the build. -/
  cfg : Config
  /-- `x[0]` to `x[31]` (10 R20). -/
  regs : Vector Word 32
  /-- The program counter (10 R25). -/
  pc : Word
  /-- The text pointer (10 R27). -/
  tp : Word
  /-- `M` (10 R33). -/
  mem : Memory
  /-- The run state, with the fault record (10 R28, R29). -/
  run : RunState
  /-- The events emitted so far, oldest first (10 R32). -/
  events : List Event
  /-- The answers the host gives to the next read-integer requests, next first (43 R213, 60 R258). -/
  input : List HostAnswer
deriving DecidableEq, Repr

/-- Why the machine has no next step. Each is a stuck state the spec describes. -/
inductive Fault where
  /-- Raised by `step` when `run` is Halted: "Both `Halted` and `Faulted` are terminal: no step leaves them" (10 R28). Safe. -/
  | coreHalted
  /-- Raised by `step` when `run` is Faulted: "No later step exists" (60 R248). Safe. -/
  | coreFaulted
  /-- Raised by syscall service 5 while the host has not answered: "while the host has not answered, the core has no step"
  (43 R213, 60 R258). Safe. -/
  | awaitingHost
deriving DecidableEq, Repr

/-- Why an instruction has no meaning. -/
inductive Refusal where
  /-- Raised by an arm of `exec` that stands for an instruction without a meaning; no arm of this model does. Safe. -/
  | notModelled (mnemonic : String)
deriving DecidableEq, Repr

/-- The outcome of one step of this machine. -/
abbrev Result := Host.Outcome State Fault Refusal

/-- The reset values of 10 R34 for a build, before any program is loaded: 70 R280 (1), (2) and (4). -/
def State.resetWith (c : Config) : State where
  cfg := c
  regs := (Vector.replicate 32 0x00000000#32).set 29 c.spInit
  pc := 0x00000000#32
  tp := 0x00000000#32
  mem := []
  run := .running
  events := []
  input := []

/-- The machine right after reset, default build, with no program loaded: N = 0, which is legal and leaves TP = 0 (70 R281).
`Sys2Proof.Machine.State.boot` loads a program. -/
def State.reset : State := State.resetWith Config.default

end Sys2Proof.Machine
end

