-- ==== Sys2Proof/Machine/Ops.lean ====
section
/-!
DEFINITION. The named operations over memory, registers, events and the run state: memory access (spec/20_memory.md), the
register file (10 R20 to R24), the host handshake (43 R213), and the two shared ways an error is taken: `State.raise`
(60 R247, R248) and `State.anomaly` (60 R243, R246). There is no return from a fault to model (60 R251).
-/
namespace Sys2Proof.Machine

/-! ### Memory -/

/-- The canonical form: addresses strictly rising, no cell equal to what an unlisted address reads as. -/
abbrev Memory.wf (m : Memory) : Prop :=
  m.Pairwise (fun c d => c.1 < d.1) ∧ ∀ c ∈ m, c.2 ≠ Memory.unlisted

/-- Every listed address is below a bound. -/
abbrev Memory.below (m : Memory) (bound : Nat) : Prop := ∀ c ∈ m, c.1 < bound

/-- `M[a]` (10 R33). -/
def Memory.readByte : Memory → Nat → Byte
  | [], _ => Memory.unlisted
  | (k, v) :: m, a => if a = k then v else Memory.readByte m a

/-- Put a cell before the first one with a higher address. -/
def Memory.insertCell : Memory → Nat → Byte → Memory
  | [], a, b => [(a, b)]
  | (k, v) :: m, a, b => if a < k then (a, b) :: (k, v) :: m else (k, v) :: Memory.insertCell m a b

/-- Take out the cell of an address. -/
def Memory.erase (m : Memory) (a : Nat) : Memory := m.filter (fun c => decide (c.1 ≠ a))

/-- `M[a] <- b`. A byte equal to what an unlisted address reads as is not listed. -/
def Memory.writeByte (m : Memory) (a : Nat) (b : Byte) : Memory :=
  if b = Memory.unlisted then m.erase a else (m.erase a).insertCell a b

/-- `MemRead(a, n)`: `M[a] ++ M[a+1] ++ ... ++ M[a+n-1]`, `M[a]` in the most significant byte (20 R52). -/
def Memory.read (m : Memory) (a : Nat) : (n : Nat) → BitVec (8 * n)
  | 0 => 0#0
  | n + 1 => m.read a n ++ m.readByte (a + n)

/-- `MemWrite(a, n, v)`: for each k below n, `M[a+k] <- v[8(n-k)-1 : 8(n-k)-8]` (20 R52). -/
def Memory.write (m : Memory) (a : Nat) : (n : Nat) → BitVec (8 * n) → Memory
  | 0, _ => m
  | n + 1, v => (m.write a n (v.extractLsb' 8 (8 * n))).writeByte (a + n) (v.extractLsb' 0 8)

/-- `MemRead(a, 4)`. -/
def Memory.readWord (m : Memory) (a : Word) : Word := m.read (uint a) 4

/-- `MemRead(a, 2)`. -/
def Memory.readHalf (m : Memory) (a : Word) : BitVec 16 := m.read (uint a) 2

/-- `MemWrite(a, 4, v)`. -/
def Memory.writeWord (m : Memory) (a v : Word) : Memory := m.write (uint a) 4 v

/-- `InBounds(addr, n)` exactly when `uint(addr) + n ≤ MEM_SIZE`, over the integers (20 R51). -/
def State.inBounds (s : State) (a : Word) (n : Nat) : Bool := decide (uint a + n ≤ s.cfg.memSize)

/-! ### register_file -/

/-- `x[i]` (00 R8, 10 R21): register 0 reads 0 in a build that hardwires it. -/
def State.x (s : State) (i : Reg) : Word :=
  if s.cfg.r0Hardwired = true ∧ i = 0 then 0x00000000#32 else s.regs[i]

/-- `x[i] <- v` (00 R8, 10 R21): a write to register 0 does nothing in a build that hardwires it. -/
def State.setX (s : State) (i : Reg) (v : Word) : State :=
  if s.cfg.r0Hardwired = true ∧ i = 0 then s else { s with regs := s.regs.set i v }

/-- Read port A (10 R24): indexed by `rs`, or by `SYSCALL_REG` for a syscall. -/
def State.portA (s : State) (i : Reg) : Word := s.x i

/-- Read port B (10 R24): indexed by `rt`, or by `ARG_REG` for a syscall. -/
def State.portB (s : State) (i : Reg) : Word := s.x i

/-- The write port `(we, waddr, wdata)` (10 R24). -/
def State.writePort (s : State) (we : Bool) (waddr : Reg) (wdata : Word) : State :=
  if we = true then s.setX waddr wdata else s

/-! ### program_counter -/

/-- `pc <- t`. -/
def State.setPc (s : State) (t : Word) : State := { s with pc := t }

/-- The advance after a fetch: `pc <- pc + 4` modulo 2^32 (10 R25, 70 R286). -/
def State.advance (s : State) : State := s.setPc (s.pc + 4#32)

/-- `pc_cur`, seen from the execute phase, where `pc` holds `pc_cur + 4` (00 R8, 70 R286). -/
def State.pcCur (s : State) : Word := s.pc - 4#32

/-! ### control_sequencer: events, stops, errors -/

/-- `emit E`: append to the event list (00 R8, 10 R32). -/
def State.emit (s : State) (e : Event) : State := { s with events := s.events ++ [e] }

/-- `run <- r` and `emit Stop(r)` (10 R32). -/
def State.stop (s : State) (r : RunState) : State := { s with run := r }.emit (.stop r)

/-- Taking a fault, the one shared operation of 60 R247 and R248: `run` and the Stop event change, `pc` goes back to the
faulting address, and nothing else changes. -/
def State.raise (s : State) (rec : FaultRecord) : State := (s.setPc rec.faultPc).stop (.faulted rec)

/-- The record of a MemoryFault (60 R241, R242). -/
def memoryFault (kind : AccessKind) (faultPc : Word) (word : Option Word) (addr : Word) (size : Nat) : FaultRecord where
  error := .memoryFault
  kind := some kind
  faultPc := faultPc
  word := word
  addr := some addr
  size := some size
  value := none

/-- The record of the other kinds: `fault_pc`, `word`, and `value` where the kind has one (60 R241). -/
def plainFault (error : ErrorKind) (faultPc word : Word) (value : Option Word) : FaultRecord where
  error := error
  kind := none
  faultPc := faultPc
  word := some word
  addr := none
  size := none
  value := value

/-- The error an anomaly becomes under `STRICT_DECODE` (60 R241). -/
def AnomalyKind.error : AnomalyKind → ErrorKind
  | .decodeAnomaly => .decodeAnomaly
  | .unknownSyscall => .unknownSyscall

/-- `anomaly A(pc_cur, word, value)`: a fatal fault under `STRICT_DECODE`, else one event and no other change
(60 R243, R246). -/
def State.anomaly (s : State) (k : AnomalyKind) (word : Word) (value : Option Word) : State :=
  if s.cfg.strictDecode = true then s.raise (plainFault k.error s.pcCur word value)
  else s.emit (.anomaly k s.pcCur word value)

/-- What the host gives when the core asks (43 R213). -/
inductive HostReply where
  /-- No answer yet: the core is blocked (60 R258). -/
  | blocked
  /-- The answer, and the state in which it is taken. -/
  | answer (a : HostAnswer) (s : State)
deriving DecidableEq, Repr

/-- `HostReadInt()` (43 R213): the next answer of the host. -/
def hostReadInt (s : State) : HostReply :=
  match s.input with
  | [] => .blocked
  | a :: rest => .answer a { s with input := rest }

/-- The host answers (43 R213, 60 R259): its answer waits behind those it has given before. -/
def State.answer (s : State) (a : HostAnswer) : State := { s with input := s.input ++ [a] }

/-! ### fetch_unit -/

/-- What the fetch_unit returns (20 R66). -/
inductive FetchResult where
  | word (w : Word)
  | fault (rec : FaultRecord)
deriving DecidableEq, Repr

/-- The fetch_unit (20 R66, 70 R285): the word at `pc`, or MemoryFault of kind Fetch with no `word`. -/
def fetchUnit (s : State) : FetchResult :=
  if s.inBounds s.pc 4 = true then .word (s.mem.readWord s.pc)
  else .fault (memoryFault .fetch s.pc none s.pc 4)

/-! ### load_store_unit -/

/-- The unit's operations (20 R65). -/
inductive LsuOp where
  | LW | LHU | SW
deriving DecidableEq, Repr

/-- The width of an access in bytes (20 R56, R65). -/
def LsuOp.size : LsuOp → Nat
  | .LW => 4
  | .LHU => 2
  | .SW => 4

/-- The fault sub-kind of an access (20 R65). -/
def LsuOp.kind : LsuOp → AccessKind
  | .LW => .load
  | .LHU => .load
  | .SW => .store

/-- What the load_store_unit returns (20 R65). -/
inductive LsuResult where
  | fault (kind : AccessKind) (ea : Word) (n : Nat)
  | ldata (v : Word)
  | stored (m : Memory)
deriving DecidableEq, Repr

/-- The load_store_unit (20 R65): `ea = base + offset` modulo 2^32 (20 R50), the bounds check on the whole access, then the
access. -/
def loadStoreUnit (op : LsuOp) (base offset sdata : Word) (s : State) : LsuResult :=
  let ea := base + offset
  if s.inBounds ea op.size = true then
    match op with
    | .LW => .ldata (s.mem.readWord ea)
    | .LHU => .ldata (zext32 (s.mem.readHalf ea))
    | .SW => .stored (s.mem.writeWord ea sdata)
  else .fault op.kind ea op.size

/-- What the byte scan of service 4 finds (43 R212). -/
inductive ScanResult where
  /-- The bytes before the NUL. -/
  | text (bytes : List Byte)
  /-- The first address that fails `InBounds(a, 1)`. -/
  | outOfBounds (addr : Nat)
deriving DecidableEq, Repr

/-- Put a byte in front of the text a scan finds. -/
def ScanResult.push (b : Byte) : ScanResult → ScanResult
  | .text bytes => .text (b :: bytes)
  | .outOfBounds a => .outOfBounds a

/-- The loop of 43 R212 from address `a` with `room` bytes of memory from there on: `InBounds(a, 1)` is `room > 0`. -/
def Memory.scan (m : Memory) (a : Nat) : (room : Nat) → ScanResult
  | 0 => .outOfBounds a
  | room + 1 => if m.readByte a = 0x00#8 then .text [] else (m.scan (a + 1) room).push (m.readByte a)

end Sys2Proof.Machine
end

