-- ==== Sys2Proof/Machine/Operands.lean ====
section
/-!
DEFINITION. Operand assembly (spec/30_encoding.md R86): every form an operand of an instruction takes.
-/
namespace Sys2Proof.Machine

/-- `simm` = `sext_32(imm16)`, for every I-type instruction, andi and ori included (30 R86, 90 C3). -/
def simm (imm : BitVec 16) : Word := sext32 imm

/-- The lui value: `sext_32(imm16) << 16` modulo 2^32 (30 R86). -/
def luiValue (imm : BitVec 16) : Word := sext32 imm <<< 16

/-- The absolute target of a branch: `sext_32(imm16)`, unscaled (41 R160). -/
def branchTarget (imm : BitVec 16) : Word := sext32 imm

/-- The absolute target of a jump: `zext_32(target26)`, unscaled (42 R200). -/
def jumpTarget (target : BitVec 26) : Word := zext32 target

/-- The effective address `x[rs] + simm` modulo 2^32 (20 R50). -/
def effectiveAddress (s : State) (rs : Reg) (imm : BitVec 16) : Word := s.x rs + simm imm

end Sys2Proof.Machine
end

