-- ==== Sys2Proof/Machine/Flags.lean ====
section
/-!
DEFINITION. The core has no flags, condition codes or predicate registers, and overflow leaves no trace (spec/10_state.md
R30). What another core would put in a flag is a compare result: a value for a general register, or a branch's decision.
-/
namespace Sys2Proof.Machine

/-- A compare's result in a register: 1 or 0 (40 R129). -/
def boolWord (b : Bool) : Word := if b = true then 0x00000001#32 else 0x00000000#32

/-- `a <s b`: the signed compare of slt and slti (40 R129, 41 R163). -/
def lessSigned (a b : Word) : Bool := decide (sint a < sint b)

/-- `a <u b`: the unsigned compare of sltu (40 R130, 90 C2). -/
def lessUnsigned (a b : Word) : Bool := decide (uint a < uint b)

/-- `a == b` on all 32 bits: the compare of beq and bne (00 R7). -/
def equalWords (a b : Word) : Bool := decide (a = b)

end Sys2Proof.Machine
end

