-- ==== Sys2Proof/Machine/Alu.lean ====
section
/-!
DEFINITION. The alu (spec/00_scope.md R3): its operations, and the shared shapes of an instruction that computes a value from
its operands and writes one register (10 R24).
-/
namespace Sys2Proof.Machine

/-- Addition modulo 2^32, no trap (40 R123). -/
def aluAdd (a b : Word) : Word := a + b
/-- Subtraction modulo 2^32, no trap (40 R125). -/
def aluSub (a b : Word) : Word := a - b
/-- 40 R126. -/
def aluAnd (a b : Word) : Word := a &&& b
/-- 40 R127. -/
def aluOr (a b : Word) : Word := a ||| b
/-- 40 R128. -/
def aluNor (a b : Word) : Word := ~~~(a ||| b)
/-- 40 R129. -/
def aluSlt (a b : Word) : Word := boolWord (lessSigned a b)
/-- 40 R130. -/
def aluSltu (a b : Word) : Word := boolWord (lessUnsigned a b)
/-- Shift left, dropped bits lost, zeros in (40 R120). -/
def aluSll (a : Word) (shamt : Nat) : Word := a <<< shamt
/-- Shift right, sign bit copied in (40 R121). -/
def aluSra (a : Word) (shamt : Nat) : Word := a.sshiftRight shamt

/-- The instruction ends with one register written (10 R24) and `pc` at `pc_cur + 4` (70 R286). -/
def writeBack (rd : Reg) (v : Word) (s : State) : Result := .next (s.writePort true rd v)

/-- `x[rd] <- f(x[rs], x[rt])`: read ports A and B, then the write port (10 R24). -/
def regReg (f : Word → Word → Word) (rd rs rt : Reg) (s : State) : Result :=
  writeBack rd (f (s.portA rs) (s.portB rt)) s

/-- `x[rt] <- f(x[rs], simm)`. -/
def regImm (f : Word → Word → Word) (rt rs : Reg) (imm : BitVec 16) (s : State) : Result :=
  writeBack rt (f (s.portA rs) (simm imm)) s

/-- `x[rd] <- f(x[rt], shamt)`. -/
def shiftReg (f : Word → Nat → Word) (rd rt : Reg) (shamt : Nat) (s : State) : Result :=
  writeBack rd (f (s.portB rt) shamt) s

/-- The instruction ends with `pc` at a target, or at `pc_cur + 4` where it does not go there (10 R26). -/
def jumpIf (taken : Bool) (target : Word) (s : State) : Result :=
  .next (if taken = true then s.setPc target else s)

end Sys2Proof.Machine
end

