-- ==== Sys2Proof/Machine/ImmediateType.lean ====
section
/-!
DEFINITION. The immediate-type instructions (spec/41_immediate_type.md): the execute phase, in which `pc` already holds
`pc_cur + 4`.
-/
namespace Sys2Proof.Machine

/-- 41 R160: the target is absolute. -/
def execBeq (rs rt : Reg) (imm : BitVec 16) (s : State) : Result :=
  jumpIf (equalWords (s.portA rs) (s.portB rt)) (branchTarget imm) s

/-- 41 R161. -/
def execBne (rs rt : Reg) (imm : BitVec 16) (s : State) : Result :=
  jumpIf (!equalWords (s.portA rs) (s.portB rt)) (branchTarget imm) s

/-- 41 R162. -/
def execAddi (rt rs : Reg) (imm : BitVec 16) (s : State) : Result := regImm aluAdd rt rs imm s

/-- 41 R163. -/
def execSlti (rt rs : Reg) (imm : BitVec 16) (s : State) : Result := regImm aluSlt rt rs imm s

/-- 41 R164: the immediate is sign-extended (90 C3). -/
def execAndi (rt rs : Reg) (imm : BitVec 16) (s : State) : Result := regImm aluAnd rt rs imm s

/-- 41 R165: the immediate is sign-extended (90 C3). -/
def execOri (rt rs : Reg) (imm : BitVec 16) (s : State) : Result := regImm aluOr rt rs imm s

/-- 41 R166. -/
def execLui (rt : Reg) (imm : BitVec 16) (s : State) : Result := writeBack rt (luiValue imm) s

/-- What the control_sequencer does with the load_store_unit's answer: a fault is taken with the instruction's word, load
data goes to `x[rt]`, a store's memory is kept (20 R65). -/
def finishAccess (word : Word) (rt : Reg) (r : LsuResult) (s : State) : Result :=
  match r with
  | .fault kind ea n => .next (s.raise (memoryFault kind s.pcCur (some word) ea n))
  | .ldata v => writeBack rt v s
  | .stored m => .next { s with mem := m }

/-- One access through the load_store_unit: base on port A, data on port B (20 R65). -/
def accessMemory (op : LsuOp) (word : Word) (rt : Reg) (imm : BitVec 16) (rs : Reg) (s : State) : Result :=
  finishAccess word rt (loadStoreUnit op (s.portA rs) (simm imm) (s.portB rt) s) s

/-- 41 R167. -/
def execLw (rt : Reg) (imm : BitVec 16) (rs : Reg) (s : State) : Result :=
  accessMemory .LW (encode (.lw rt imm rs)) rt imm rs s

/-- 41 R168: `LHU_MODE` is checked before the address (60 R249). -/
def execLhu (rt : Reg) (imm : BitVec 16) (rs : Reg) (s : State) : Result :=
  match s.cfg.lhuMode with
  | .fault => .next (s.raise (plainFault .unimplementedOpcode s.pcCur (encode (.lhu rt imm rs)) none))
  | .implement => accessMemory .LHU (encode (.lhu rt imm rs)) rt imm rs s

/-- 41 R169. -/
def execSw (rt : Reg) (imm : BitVec 16) (rs : Reg) (s : State) : Result :=
  accessMemory .SW (encode (.sw rt imm rs)) rt imm rs s

end Sys2Proof.Machine
end

