-- ==== Sys2Proof/Machine/JumpType.lean ====
section
/-!
DEFINITION. The jump-type instructions (spec/42_jump_type.md). R202's case is unreachable and has no arm.
-/
namespace Sys2Proof.Machine

/-- 42 R200: the target is absolute and unscaled. -/
def execJ (target : BitVec 26) (s : State) : Result := jumpIf true (jumpTarget target) s

/-- 42 R201: the link is `pc`, which is `pc_cur + 4`; then the jump. -/
def execJal (target : BitVec 26) (s : State) : Result :=
  jumpIf true (jumpTarget target) (s.writePort true linkReg s.pc)

end Sys2Proof.Machine
end

