-- ==== Sys2Proof/Machine/RegisterType.lean ====
section
/-!
DEFINITION. The register-type instructions but syscall (spec/40_register_type.md): the execute phase, in which `pc` already
holds `pc_cur + 4`.
-/
namespace Sys2Proof.Machine

/-- 40 R120. -/
def execSll (rd rt : Reg) (shamt : Nat) (s : State) : Result := shiftReg aluSll rd rt shamt s

/-- 40 R121. -/
def execSra (rd rt : Reg) (shamt : Nat) (s : State) : Result := shiftReg aluSra rd rt shamt s

/-- 40 R122: `pc <- x[rs]`, no alignment check, no delay slot. -/
def execJr (rs : Reg) (s : State) : Result := jumpIf true (s.portA rs) s

/-- 40 R123. -/
def execAdd (rd rs rt : Reg) (s : State) : Result := regReg aluAdd rd rs rt s

/-- 40 R124: the same as add. -/
def execAddu (rd rs rt : Reg) (s : State) : Result := regReg aluAdd rd rs rt s

/-- 40 R125. -/
def execSub (rd rs rt : Reg) (s : State) : Result := regReg aluSub rd rs rt s

/-- 40 R126. -/
def execAnd (rd rs rt : Reg) (s : State) : Result := regReg aluAnd rd rs rt s

/-- 40 R127. -/
def execOr (rd rs rt : Reg) (s : State) : Result := regReg aluOr rd rs rt s

/-- 40 R128. -/
def execNor (rd rs rt : Reg) (s : State) : Result := regReg aluNor rd rs rt s

/-- 40 R129. -/
def execSlt (rd rs rt : Reg) (s : State) : Result := regReg aluSlt rd rs rt s

/-- 40 R130. -/
def execSltu (rd rs rt : Reg) (s : State) : Result := regReg aluSltu rd rs rt s

end Sys2Proof.Machine
end

