-- ==== Sys2Proof/Machine/Syscall.lean ====
section
/-!
DEFINITION. syscall (spec/40_register_type.md R131) and its services (spec/43_syscall.md). `word` is the instruction's word,
for the fault record or the event.
-/
namespace Sys2Proof.Machine

/-- Service 1 (43 R211): the event, and nothing else. -/
def servicePrintInt (s : State) : Result := .next (s.emit (.printInt (sint (s.portB argReg))))

/-- Service 4 (43 R212): UnimplementedOpcode in `fault` mode; in `implement` mode the NUL-terminated text at `x[4]`, or
MemoryFault at the first byte outside memory with nothing emitted. -/
def servicePrintString (word : Word) (s : State) : Result :=
  match s.cfg.printStringMode with
  | .fault => .next (s.raise (plainFault .unimplementedOpcode s.pcCur word (some (s.portA syscallReg))))
  | .implement =>
    match s.mem.scan (uint (s.portB argReg)) (s.cfg.memSize - uint (s.portB argReg)) with
    | .text bytes => .next (s.emit (.printString bytes))
    | .outOfBounds a => .next (s.raise (memoryFault .load s.pcCur (some word) (BitVec.ofNat 32 a) 1))

/-- Service 5 (43 R213): the host's value goes to `x[2]`; NoValue raises InputFault, which leaves the answer where it was,
since a fault keeps no effect (60 R247); with no answer there is no step. -/
def serviceReadInt (word : Word) (s : State) : Result :=
  match hostReadInt s with
  | .blocked => .fault .awaitingHost
  | .answer (.value v) s' => .next ((s'.writePort true syscallReg v).emit (.readInt v))
  | .answer .noValue _ => .next (s.raise (plainFault .inputFault s.pcCur word none))

/-- Service 10 (43 R214): `pc <- TP`. The halt is the next step's. -/
def serviceExit (s : State) : Result := .next (s.setPc s.tp)

/-- Any other service (43 R215): the UnknownSyscall anomaly. -/
def serviceUnknown (word : Word) (s : State) : Result :=
  .next (s.anomaly .unknownSyscall word (some (s.portA syscallReg)))

/-- `Syscall(pc_cur)` (43 R210): dispatch on all 32 bits of `x[2]`. -/
def syscallService (word : Word) (s : State) : Result :=
  if s.portA syscallReg = svcPrintInt then servicePrintInt s
  else if s.portA syscallReg = svcPrintString then servicePrintString word s
  else if s.portA syscallReg = svcReadInt then serviceReadInt word s
  else if s.portA syscallReg = svcExit then serviceExit s
  else serviceUnknown word s

/-- 40 R131. -/
def execSyscall (ign : BitVec 20) (s : State) : Result := syscallService (encode (.syscall ign)) s

end Sys2Proof.Machine
end

