-- ==== Sys2Proof/Machine/Dispatch.lean ====
section
/-! DEFINITION. `Execute(d)` (spec/70_reset_and_hazards.md R287): one arm per instruction, one rule per arm. -/
namespace Sys2Proof.Machine

def exec (i : Instr) (s : State) : Host.Outcome State Fault Refusal :=
  match i with
  -- register-type (40_register_type.md)
  | .sll rd rt shamt _ => Sys2Proof.Machine.execSll rd rt shamt s
  | .sra rd rt shamt _ => Sys2Proof.Machine.execSra rd rt shamt s
  | .jr rs _ => Sys2Proof.Machine.execJr rs s
  | .syscall ign => Sys2Proof.Machine.execSyscall ign s
  | .add rd rs rt _ => Sys2Proof.Machine.execAdd rd rs rt s
  | .addu rd rs rt _ => Sys2Proof.Machine.execAddu rd rs rt s
  | .sub rd rs rt _ => Sys2Proof.Machine.execSub rd rs rt s
  | .and rd rs rt _ => Sys2Proof.Machine.execAnd rd rs rt s
  | .or rd rs rt _ => Sys2Proof.Machine.execOr rd rs rt s
  | .nor rd rs rt _ => Sys2Proof.Machine.execNor rd rs rt s
  | .slt rd rs rt _ => Sys2Proof.Machine.execSlt rd rs rt s
  | .sltu rd rs rt _ => Sys2Proof.Machine.execSltu rd rs rt s
  -- immediate-type (41_immediate_type.md)
  | .beq rs rt imm => Sys2Proof.Machine.execBeq rs rt imm s
  | .bne rs rt imm => Sys2Proof.Machine.execBne rs rt imm s
  | .addi rt rs imm => Sys2Proof.Machine.execAddi rt rs imm s
  | .slti rt rs imm => Sys2Proof.Machine.execSlti rt rs imm s
  | .andi rt rs imm => Sys2Proof.Machine.execAndi rt rs imm s
  | .ori rt rs imm => Sys2Proof.Machine.execOri rt rs imm s
  | .lui rt imm _ => Sys2Proof.Machine.execLui rt imm s
  | .lw rt imm rs => Sys2Proof.Machine.execLw rt imm rs s
  | .lhu rt imm rs => Sys2Proof.Machine.execLhu rt imm rs s
  | .sw rt imm rs => Sys2Proof.Machine.execSw rt imm rs s
  -- jump-type (42_jump_type.md)
  | .j target => Sys2Proof.Machine.execJ target s
  | .jal target => Sys2Proof.Machine.execJal target s

end Sys2Proof.Machine
end

