-- ==== Sys2Proof/Machine/Sequencer.lean ====
section
/-!
DEFINITION. The control_sequencer's step (spec/70_reset_and_hazards.md R283 to R288) and the loader's result (70 R280, R281).
-/
namespace Sys2Proof.Machine

/-- The halt (70 R284): `run <- Halted`, `emit Stop(Halted)`, nothing else. -/
def State.halt (s : State) : State := s.stop .halted

/-- Decode and execute a word whose fetch has advanced `pc` (70 R283, R287). A word outside the tables is a DecodeAnomaly
(40 R132, 41 R170, 60 R243). -/
def runWord (w : Word) (s : State) : Result :=
  match decode w with
  | .instr i => exec i s
  | .unrecognizedFunct => .next (s.anomaly .decodeAnomaly w none)
  | .unrecognizedOpcode => .next (s.anomaly .decodeAnomaly w none)

/-- The part of a step after the halt test: fetch, advance, decode, execute (70 R283). -/
def fetchAndRun (s : State) : Result :=
  match fetchUnit s with
  | .fault rec => .next (s.raise rec)
  | .word w => runWord w s.advance

/-- One step of the core (70 R283). It is defined only when `run` is Running. -/
def sequencerStep (s : State) : Result :=
  match s.run with
  | .halted => .fault .coreHalted
  | .faulted _ => .fault .coreFaulted
  | .running => if s.pc = s.tp then .next s.halt else fetchAndRun s

/-- The loader's writes: `MemWrite(a + 4i, 4, w_i)` for each word in file order (70 R281). -/
def Memory.loadWords (m : Memory) (a : Nat) : List Word → Memory
  | [] => m
  | w :: ws => (m.write a 4 w).loadWords (a + 4) ws

/-- Reset with a program (70 R280, R281): the image from address 0 and TP = 4N. `none` is LoadError, when 4N exceeds
MEM_SIZE: the core never starts (90 C4). -/
def State.boot (c : Config) (ws : List Word) : Option State :=
  if 4 * ws.length ≤ c.memSize then
    some { State.resetWith c with mem := Memory.loadWords [] 0 ws, tp := BitVec.ofNat 32 (4 * ws.length) }
  else none

/-- A state in which the next step fetches and runs the word `w`: `w` stored big-endian at `pc`, the core running, and, where
`pc` is the end of the loaded program, `TP` one word further, as the loader leaves it (70 R281, R284). -/
def State.placeWord (s : State) (w : Word) : State :=
  { s with
    mem := s.mem.loadWords (uint s.pc) [w]
    tp := if s.pc = s.tp then s.pc + 4#32 else s.tp
    run := .running }

end Sys2Proof.Machine
end

