-- ==== Sys2Proof/Machine/Step.lean ====
section
/-! DEFINITION. One step of the machine, and the placing of an instruction where it fetches the next one. -/
namespace Sys2Proof.Machine

/-- One step (70 R283). -/
def step (s : State) : Host.Outcome State Fault Refusal := sequencerStep s

/-- `s` with a table word placed where `step` fetches its next instruction. -/
def State.withFetchWord (s : State) (nbits w : Nat) : State := s.placeWord (tableWord nbits w)

end Sys2Proof.Machine
end

