-- ==== Sys2Proof/Safety.lean ====
section
/-!
DEFINITION. The terms claims are stated in: what an instruction leaves as it was, the ways a step ends, the invariants of the
core's state, runs and their observation (spec/70_reset_and_hazards.md R289 to R291).
-/
namespace Sys2Proof.Machine

/-! ### What stays as it was -/

/-- Every register reads as before. -/
def SameRegs (s t : State) : Prop := ∀ r : Reg, t.x r = s.x r

/-- Every byte of memory reads as before. -/
def SameMem (s t : State) : Prop := ∀ a : Nat, t.mem.readByte a = s.mem.readByte a

/-- Every byte outside the `n` bytes from address `a` reads as before. -/
def SameMemOutside (s t : State) (a n : Nat) : Prop :=
  ∀ c : Nat, c < a ∨ a + n ≤ c → t.mem.readByte c = s.mem.readByte c

/-- The configuration, TP, the run state, the events and the host's answers are as before. -/
def SameControl (s t : State) : Prop :=
  t.cfg = s.cfg ∧ t.tp = s.tp ∧ t.run = s.run ∧ t.events = s.events ∧ t.input = s.input

/-- Register `rd` reads `v`, or 0 where it is a hardwired register 0 (10 R21), and every other register reads as before. -/
def WritesReg (s t : State) (rd : Reg) (v : Word) : Prop :=
  t.x rd = (if s.cfg.r0Hardwired = true ∧ rd = 0 then 0x00000000#32 else v) ∧ ∀ r : Reg, r ≠ rd → t.x r = s.x r

/-! ### How an execute phase ends -/

/-- One register written; `pc` stays at `pc_cur + 4`; memory and control state as before. -/
def RegisterWritten (s t : State) (rd : Reg) (v : Word) : Prop :=
  WritesReg s t rd v ∧ t.pc = s.pc ∧ SameMem s t ∧ SameControl s t

/-- Only `pc` changes, to `target`. -/
def PcOnly (s t : State) (target : Word) : Prop :=
  t.pc = target ∧ SameRegs s t ∧ SameMem s t ∧ SameControl s t

/-- Only the event list changes, by one event at its end. -/
def EventOnly (s t : State) (e : Event) : Prop :=
  t.events = s.events ++ [e] ∧ t.pc = s.pc ∧ SameRegs s t ∧ SameMem s t ∧
    t.cfg = s.cfg ∧ t.tp = s.tp ∧ t.run = s.run ∧ t.input = s.input

/-- A precise fault (60 R247): `run` is Faulted, one Stop event is emitted, `pc` is the faulting address, nothing else
changes. -/
def FaultTaken (s t : State) (rec : FaultRecord) : Prop :=
  t.run = .faulted rec ∧ t.events = s.events ++ [.stop (.faulted rec)] ∧ t.pc = rec.faultPc ∧
    SameRegs s t ∧ SameMem s t ∧ t.cfg = s.cfg ∧ t.tp = s.tp ∧ t.input = s.input

/-- The step at `s` fetches the word `w`: the core runs, is not at TP, and `w` stands at `pc` (70 R283). -/
def FetchesWord (s : State) (w : Word) : Prop :=
  s.run = .running ∧ s.pc ≠ s.tp ∧ s.inBounds s.pc 4 = true ∧ s.mem.readWord s.pc = w

/-- What the next step does where a jump has put `pc` (40 R122, 41 R160, 42 R200): at TP it halts, elsewhere a target without
four bytes in memory faults at the fetch. -/
def NextStepChecksTarget (t : State) : Prop :=
  t.run = .running →
    (t.pc = t.tp → ∃ u, step t = .next u ∧ u.run = .halted) ∧
    (t.pc ≠ t.tp → ¬ (t.pc.toNat + 4 ≤ t.cfg.memSize) →
      ∃ u, step t = .next u ∧ FaultTaken t u ⟨.memoryFault, some .fetch, t.pc, none, some t.pc, some 4, none⟩)

end Sys2Proof.Machine

namespace Sys2Proof

/-! ### Read and write sets (10 R22) -/

/-- The register an instruction may write (10 R22; syscall writes it for service 5 only). -/
def Instr.dest : Instr → Option Reg
  | .sll rd _ _ _ => some rd
  | .sra rd _ _ _ => some rd
  | .jr _ _ => none
  | .syscall _ => some 2
  | .add rd _ _ _ => some rd
  | .addu rd _ _ _ => some rd
  | .sub rd _ _ _ => some rd
  | .and rd _ _ _ => some rd
  | .or rd _ _ _ => some rd
  | .nor rd _ _ _ => some rd
  | .slt rd _ _ _ => some rd
  | .sltu rd _ _ _ => some rd
  | .beq _ _ _ => none
  | .bne _ _ _ => none
  | .addi rt _ _ => some rt
  | .slti rt _ _ => some rt
  | .andi rt _ _ => some rt
  | .ori rt _ _ => some rt
  | .lui rt _ _ => some rt
  | .lw rt _ _ => some rt
  | .lhu rt _ _ => some rt
  | .sw _ _ _ => none
  | .j _ => none
  | .jal _ => some 31

/-- The registers an instruction reads, given the service number in `x[2]` (10 R22). -/
def Instr.sources (service : Word) : Instr → List Reg
  | .sll _ rt _ _ => [rt]
  | .sra _ rt _ _ => [rt]
  | .jr rs _ => [rs]
  | .syscall _ => if service = 0x00000001#32 ∨ service = 0x00000004#32 then [2, 4] else [2]
  | .add _ rs rt _ => [rs, rt]
  | .addu _ rs rt _ => [rs, rt]
  | .sub _ rs rt _ => [rs, rt]
  | .and _ rs rt _ => [rs, rt]
  | .or _ rs rt _ => [rs, rt]
  | .nor _ rs rt _ => [rs, rt]
  | .slt _ rs rt _ => [rs, rt]
  | .sltu _ rs rt _ => [rs, rt]
  | .beq rs rt _ => [rs, rt]
  | .bne rs rt _ => [rs, rt]
  | .addi _ rs _ => [rs]
  | .slti _ rs _ => [rs]
  | .andi _ rs _ => [rs]
  | .ori _ rs _ => [rs]
  | .lui _ _ _ => []
  | .lw _ _ rs => [rs]
  | .lhu _ _ rs => [rs]
  | .sw rt _ rs => [rs, rt]
  | .j _ => []
  | .jal _ => []

/-- The addresses an instruction may set `pc` to after the advance, other than `pc_cur` on a fault (10 R26). -/
def Instr.nextPcs (s : Machine.State) : Instr → List Word
  | .jr rs _ => [s.x rs]
  | .syscall _ => if s.x 2 = 0x0000000A#32 then [s.tp] else [s.pc]
  | .beq rs rt imm => if s.x rs = s.x rt then [imm.signExtend 32] else [s.pc]
  | .bne rs rt imm => if s.x rs = s.x rt then [s.pc] else [imm.signExtend 32]
  | .j target => [target.setWidth 32]
  | .jal target => [target.setWidth 32]
  | .sll _ _ _ _ => [s.pc]
  | .sra _ _ _ _ => [s.pc]
  | .add _ _ _ _ => [s.pc]
  | .addu _ _ _ _ => [s.pc]
  | .sub _ _ _ _ => [s.pc]
  | .and _ _ _ _ => [s.pc]
  | .or _ _ _ _ => [s.pc]
  | .nor _ _ _ _ => [s.pc]
  | .slt _ _ _ _ => [s.pc]
  | .sltu _ _ _ _ => [s.pc]
  | .addi _ _ _ => [s.pc]
  | .slti _ _ _ => [s.pc]
  | .andi _ _ _ => [s.pc]
  | .ori _ _ _ => [s.pc]
  | .lui _ _ _ => [s.pc]
  | .lw _ _ _ => [s.pc]
  | .lhu _ _ _ => [s.pc]
  | .sw _ _ _ => [s.pc]

end Sys2Proof

namespace Sys2Proof.Machine

/-- The two states differ in nothing but their registers. -/
def AgreeOutsideRegs (s t : State) : Prop :=
  t.cfg = s.cfg ∧ t.pc = s.pc ∧ t.tp = s.tp ∧ t.mem = s.mem ∧ t.run = s.run ∧ t.events = s.events ∧ t.input = s.input

/-- Every word of a row of the opcode table decodes to the instruction `f` builds from its fields. -/
def RowDecodes (mask pattern : Word) (f : Word → Instr) : Prop :=
  ∀ w : Word, w &&& mask = pattern → decode w = .instr (f w)

/-- The funct or opcode of the word is not in 30 R87 to R89: the encodings of 40 R132 and 41 R170. -/
def UnrecognizedWord (w : Word) : Prop :=
  (opcodeField w = 0x00#6 ∧ functField w ∉ [0x00#6, 0x03#6, 0x08#6, 0x0C#6, 0x20#6, 0x21#6, 0x22#6, 0x24#6, 0x25#6,
    0x27#6, 0x2A#6, 0x2B#6]) ∨
  opcodeField w ∉ [0x00#6, 0x02#6, 0x03#6, 0x04#6, 0x05#6, 0x08#6, 0x0A#6, 0x0C#6, 0x0D#6, 0x0F#6, 0x23#6, 0x25#6, 0x2B#6]

/-! ### Invariants -/

/-- The record fields each kind fills (60 R241). -/
def FaultRecord.WellFormed (rec : FaultRecord) : Prop :=
  match rec.error with
  | .memoryFault =>
    rec.value = none ∧
      ((rec.kind = some .fetch ∧ rec.word = none ∧ rec.addr = some rec.faultPc ∧ rec.size = some 4) ∨
        (rec.kind = some .load ∧ rec.word.isSome ∧ rec.addr.isSome ∧
          (rec.size = some 4 ∨ rec.size = some 2 ∨ rec.size = some 1)) ∨
        (rec.kind = some .store ∧ rec.word.isSome ∧ rec.addr.isSome ∧ rec.size = some 4))
  | .decodeAnomaly =>
    rec.kind = none ∧ rec.word.isSome ∧ rec.addr = none ∧ rec.size = none ∧ rec.value = none
  | .unimplementedOpcode =>
    rec.kind = none ∧ rec.word.isSome ∧ rec.addr = none ∧ rec.size = none ∧
      (rec.value = none ∨ rec.value = some 0x00000004#32)
  | .inputFault =>
    rec.kind = none ∧ rec.word.isSome ∧ rec.addr = none ∧ rec.size = none ∧ rec.value = none
  | .unknownSyscall =>
    rec.kind = none ∧ rec.word.isSome ∧ rec.addr = none ∧ rec.size = none ∧
      ∃ v, rec.value = some v ∧ v ∉ [0x00000001#32, 0x00000004#32, 0x00000005#32, 0x0000000A#32]

/-- What an event can hold (10 R32, 43 R211, R212, R215, 60 R243, R246). -/
def Event.WellFormed : Event → Prop
  | .printInt v => -2 ^ 31 ≤ v ∧ v < 2 ^ 31
  | .printString bytes => 0x00#8 ∉ bytes
  | .readInt _ => True
  | .anomaly .decodeAnomaly _ _ value => value = none
  | .anomaly .unknownSyscall _ _ value =>
    ∃ v, value = some v ∧ v ∉ [0x00000001#32, 0x00000004#32, 0x00000005#32, 0x0000000A#32]
  | .stop r => r ≠ .running

/-- The event reports a stop. -/
def Event.isStop : Event → Bool
  | .printInt _ => false
  | .printString _ => false
  | .readInt _ => false
  | .anomaly _ _ _ _ => false
  | .stop _ => true

/-- The machine invariant: the parameters meet 00 R6; memory is canonical and lists only addresses that exist (10 R33);
TP ≤ MEM_SIZE (10 R27); a hardwired register 0 holds 0 (10 R21). -/
def State.Inv (s : State) : Prop :=
  s.cfg.WellFormed ∧ s.mem.wf ∧ s.mem.below s.cfg.memSize ∧ uint s.tp ≤ s.cfg.memSize ∧
    (s.cfg.r0Hardwired = true → s.regs[(0 : Reg)] = 0x00000000#32)

/-- The stop invariant: Stop is emitted once, when the core enters Halted or Faulted (10 R32); a halted core is at TP (70 R284)
and a faulted one at the faulting address, with a record that fills its kind's fields (60 R241, R247); events are well formed. -/
def State.StopInv (s : State) : Prop :=
  (∀ e ∈ s.events, e.WellFormed) ∧
    match s.run with
    | .running => ∀ e ∈ s.events, e.isStop = false
    | .halted => ∃ before, s.events = before ++ [.stop .halted] ∧ (∀ e ∈ before, e.isStop = false) ∧ s.pc = s.tp
    | .faulted rec =>
      ∃ before, s.events = before ++ [.stop (.faulted rec)] ∧ (∀ e ∈ before, e.isStop = false) ∧
        s.pc = rec.faultPc ∧ rec.WellFormed

/-! ### The word in a record or event -/

/-- The same record with another instruction word. -/
def FaultRecord.withWord (rec : FaultRecord) (w : Word) : FaultRecord := { rec with word := some w }

/-- The same event with another instruction word, where it carries one (10 R29, R32). -/
def Event.withWord (w : Word) : Event → Event
  | .printInt v => .printInt v
  | .printString bytes => .printString bytes
  | .readInt v => .readInt v
  | .anomaly kind pc _ value => .anomaly kind pc w value
  | .stop .running => .stop .running
  | .stop .halted => .stop .halted
  | .stop (.faulted rec) => .stop (.faulted (rec.withWord w))

/-! ### Runs -/

/-- One transition of a run: a step; or, where the core waits inside service 5, the host's answer and the step that takes it.
That is the only place the host acts during a run (60 R258, R259). -/
inductive Transition : State → State → Prop where
  | step {s t : State} (h : Sys2Proof.Machine.step s = .next t) : Transition s t
  | answered {s t : State} (a : HostAnswer) (hw : Sys2Proof.Machine.step s = .fault .awaitingHost)
      (h : Sys2Proof.Machine.step (s.answer a) = .next t) : Transition s t

/-- `t` is reached from `s` by transitions. -/
inductive Reaches : State → State → Prop where
  | here (s : State) : Reaches s s
  | step {s t u : State} : Transition s t → Reaches t u → Reaches s u

/-- A run that never ends (70 R290): no step limit and no limit on the answers the host gives. -/
def InfiniteRun (run : Nat → State) : Prop := ∀ n, Transition (run n) (run (n + 1))

/-- A finished run's last state (70 R291). -/
def State.finished (s : State) : Bool :=
  match s.run with
  | .running => false
  | .halted => true
  | .faulted _ => true

/-- The observation of a finished run (70 R291). -/
structure Observation where
  regs : List Word
  pc : Word
  tp : Word
  mem : Memory
  run : RunState
  events : List Event
deriving DecidableEq, Repr

/-- What a state shows at the end of a run (70 R291). -/
def State.observe (s : State) : Observation where
  regs := (List.finRange 32).map s.x
  pc := s.pc
  tp := s.tp
  mem := s.mem
  run := s.run
  events := s.events

/-- A safe state: the core has not faulted. -/
def State.safe (s : State) : Bool :=
  match s.run with
  | .running => true
  | .halted => true
  | .faulted _ => false

end Sys2Proof.Machine
end

