-- ==== Sys2Proof/Certificates/Slice0/Obligations.lean ====
section
/-!
DEFINITION. The statements for the provers. Each docstring cites the rules of spec/ its statement formalises. `exec` is the
execute phase: on entry `pc` holds `pc_cur + 4` (70 R286), so `pc_cur` is `s.pc - 4`.
A fault record is written ⟨error, kind, fault_pc, word, addr, size, value⟩ (10 R29).
-/
open Sys2Proof Sys2Proof.Machine

/-! ### Encoding and decoding -/

/-- 30 R99: the worked encodings of the source. -/
def Obligations.WorkedEncodingsDecode : Prop :=
  decode 0x20040005#32 = .instr (.addi 4 0 0x0005#16) ∧
  decode 0x2005000A#32 = .instr (.addi 5 0 0x000A#16) ∧
  decode 0x00851820#32 = .instr (.add 3 4 5 0#5) ∧
  decode 0x2002000A#32 = .instr (.addi 2 0 0x000A#16) ∧
  decode 0x0000000C#32 = .instr (.syscall 0#20)

/-- 30 R98: the encoders place each field by its shift, every field reads back exactly, and the fields tile the word. That they
tile it is the spec's own inference ("[derived: from rules R83, R84 and R85]"). -/
def Obligations.EncodersShiftFieldsAndFieldsReadBack : Prop :=
  (∀ (rs rt rd shamt : BitVec 5) (funct : BitVec 6),
    encR rs rt rd shamt funct =
      0x00#32 <<< 26 ||| rs.setWidth 32 <<< 21 ||| rt.setWidth 32 <<< 16 ||| rd.setWidth 32 <<< 11 |||
        shamt.setWidth 32 <<< 6 ||| funct.setWidth 32 ∧
    opcodeField (encR rs rt rd shamt funct) = 0x00#6 ∧ rsField (encR rs rt rd shamt funct) = rs ∧
    rtField (encR rs rt rd shamt funct) = rt ∧ rdField (encR rs rt rd shamt funct) = rd ∧
    shamtField (encR rs rt rd shamt funct) = shamt ∧ functField (encR rs rt rd shamt funct) = funct) ∧
  (∀ (opcode : BitVec 6) (rs rt : BitVec 5) (imm16 : BitVec 16),
    encI opcode rs rt imm16 =
      opcode.setWidth 32 <<< 26 ||| rs.setWidth 32 <<< 21 ||| rt.setWidth 32 <<< 16 ||| imm16.setWidth 32 ∧
    opcodeField (encI opcode rs rt imm16) = opcode ∧ rsField (encI opcode rs rt imm16) = rs ∧
    rtField (encI opcode rs rt imm16) = rt ∧ immField (encI opcode rs rt imm16) = imm16) ∧
  (∀ (opcode : BitVec 6) (target26 : BitVec 26),
    encJ opcode target26 = opcode.setWidth 32 <<< 26 ||| target26.setWidth 32 ∧
    opcodeField (encJ opcode target26) = opcode ∧ targetField (encJ opcode target26) = target26) ∧
  (∀ w : Word, encI (opcodeField w) (rsField w) (rtField w) (immField w) = w ∧ encJ (opcodeField w) (targetField w) = w ∧
    (opcodeField w = 0x00#6 → encR (rsField w) (rtField w) (rdField w) (shamtField w) (functField w) = w))

/-- 30 R81, R83, R84, R85: every field is the named bits of the word. That one bundle holds them all whatever the format, with
`simm` and `target` (30 R86), and agrees with itself is 30 R97, the spec's decision 92 D19 (log entries 12 and 14). -/
def Obligations.DecodedBundleHoldsEveryField : Prop :=
  ∀ w : Word,
    (decodeBundle w).opcode.toNat = w.toNat / 2 ^ 26 ∧ (decodeBundle w).rs.toNat = w.toNat / 2 ^ 21 % 2 ^ 5 ∧
    (decodeBundle w).rt.toNat = w.toNat / 2 ^ 16 % 2 ^ 5 ∧ (decodeBundle w).rd.toNat = w.toNat / 2 ^ 11 % 2 ^ 5 ∧
    (decodeBundle w).shamt.toNat = w.toNat / 2 ^ 6 % 2 ^ 5 ∧ (decodeBundle w).funct.toNat = w.toNat % 2 ^ 6 ∧
    (decodeBundle w).imm16.toNat = w.toNat % 2 ^ 16 ∧ (decodeBundle w).simm.toInt = (decodeBundle w).imm16.toInt ∧
    (decodeBundle w).target.toNat = w.toNat % 2 ^ 26 ∧ (decodeBundle w).wellFormed = true

/-- 30 R87, R88, R89, R93: a word selects the operation of the one row of spec/opcode_table.json it lies in, and is
unrecognized exactly when it lies in none, which is exactly when decoding rejects it. -/
def Obligations.OpcodeTableSelectsTheOperation : Prop :=
  (∀ w : Word, ∀ row ∈ opcodeTable, row.holds w = true ↔ opOf w = row.op) ∧
  (∀ w : Word, opOf w = .UNRECOGNIZED ↔ ∀ row ∈ opcodeTable, row.holds w = false) ∧
  (∀ w : Word, (∃ i, decode w = .instr i) ↔ ∃ row ∈ opcodeTable, row.holds w = true) ∧
  (∀ w i, decode w = .instr i → i.op = opOf w)

/-- 30 R98: decoding an encoded well-formed instruction gives it back, every operand at every value. -/
def Obligations.DecodeOfEncodeIsIdentity : Prop :=
  ∀ i : Instr, i.wellFormed = true → decode (encode i) = .instr i

/-- 30 R98, R91: a word that decodes is the encoding of what it decodes to, ignored fields included. -/
def Obligations.EncodeOfDecodeIsIdentity : Prop :=
  ∀ (w : Word) (i : Instr), decode w = .instr i → encode i = w ∧ i.wellFormed = true

/-- 30 R82: dispatch on the opcode. So the J handler sees the opcodes of j and jal only (42 R202), and an opcode outside the
tables is unrecognized. -/
def Obligations.DispatchFollowsTheOpcode : Prop :=
  (∀ w : Word, (decodeBundle w).fmt =
    if opcodeField w = 0x00#6 then .R else if opcodeField w = 0x02#6 ∨ opcodeField w = 0x03#6 then .J else .I) ∧
  (∀ w : Word, (decodeBundle w).fmt = .J → (decodeBundle w).op = .J ∨ (decodeBundle w).op = .JAL) ∧
  (∀ w : Word, opcodeField w ∉ [0x00#6, 0x02#6, 0x03#6, 0x04#6, 0x05#6, 0x08#6, 0x0A#6, 0x0C#6, 0x0D#6, 0x0F#6, 0x23#6,
    0x25#6, 0x2B#6] → (decodeBundle w).fmt = .I ∧ (decodeBundle w).op = .UNRECOGNIZED ∧ decode w = .unrecognizedOpcode)

/-- 30 R91, which the spec marks as its own inference: the ignored fields have no effect; for syscall they show only in the
word a record or event carries: every field of the state ends the same, but that a record taken and an event emitted carry
their own instruction's word; the all-zero word changes nothing. -/
def Obligations.IgnoredFieldsHaveNoEffect : Prop :=
  (∀ (a b c : Reg) (n : Nat) (g g' : BitVec 5) (h h' : BitVec 15) (imm : BitVec 16) (s : State),
    exec (.sll a b n g) s = exec (.sll a b n g') s ∧ exec (.sra a b n g) s = exec (.sra a b n g') s ∧
    exec (.jr a h) s = exec (.jr a h') s ∧
    exec (.add a b c g) s = exec (.add a b c g') s ∧ exec (.addu a b c g) s = exec (.addu a b c g') s ∧
    exec (.sub a b c g) s = exec (.sub a b c g') s ∧ exec (.and a b c g) s = exec (.and a b c g') s ∧
    exec (.or a b c g) s = exec (.or a b c g') s ∧ exec (.nor a b c g) s = exec (.nor a b c g') s ∧
    exec (.slt a b c g) s = exec (.slt a b c g') s ∧ exec (.sltu a b c g) s = exec (.sltu a b c g') s ∧
    exec (.lui a imm g) s = exec (.lui a imm g') s) ∧
  (∀ (g g' : BitVec 20) (s t : State), exec (.syscall g) s = .next t →
    ∃ t', exec (.syscall g') s = .next t' ∧ t'.regs = t.regs ∧ t'.pc = t.pc ∧ t'.mem = t.mem ∧ t'.tp = t.tp ∧
      t'.input = t.input ∧ t'.cfg = t.cfg ∧
      ((t.run = s.run ∧ t'.run = s.run) ∨
        ∃ rec, t.run = .faulted rec ∧ t'.run = .faulted (rec.withWord (encode (.syscall g')))) ∧
      ((t.events = s.events ∧ t'.events = s.events) ∨
        ∃ e, t.events = s.events ++ [e] ∧ t'.events = s.events ++ [e.withWord (encode (.syscall g'))])) ∧
  (∀ (g g' : BitVec 20) (s : State) (f : Fault), exec (.syscall g) s = .fault f → exec (.syscall g') s = .fault f) ∧
  decode 0x00000000#32 = .instr (.sll 0 0 0 0#5) ∧
  (∀ s : State, exec (.sll 0 0 0 0#5) s = .next s)

/-! ### The step -/

/-- 70 R283, R286, R287: a step at a word that decodes is `exec` of the instruction, `pc` advanced by 4 before it. -/
def Obligations.StepRunsTheDecodedInstruction : Prop :=
  ∀ (s : State) (w : Word) (i : Instr), FetchesWord s w → decode w = .instr i →
    step s = exec i { s with pc := s.pc + 4#32 }

/-- 70 R284: at TP the step halts without a fetch; it is the only way into Halted. -/
def Obligations.HaltExactlyWhenPcEqualsTp : Prop :=
  (∀ s : State, s.run = .running → s.pc = s.tp →
    ∃ t, step s = .next t ∧ t.run = .halted ∧ t.events = s.events ++ [.stop .halted] ∧ t.pc = s.pc ∧ t.tp = s.tp ∧
      SameRegs s t ∧ SameMem s t ∧ t.cfg = s.cfg ∧ t.input = s.input) ∧
  (∀ s t : State, step s = .next t → (t.run = .halted ↔ s.pc = s.tp))

/-- 70 R285: the fetch check, with no alignment rule and no look at TP beyond the halt test. -/
def Obligations.FetchOutOfBoundsFaults : Prop :=
  (∀ s : State, s.run = .running → s.pc ≠ s.tp → ¬ (s.pc.toNat + 4 ≤ s.cfg.memSize) →
    ∃ t, step s = .next t ∧
      FaultTaken s t ⟨.memoryFault, some .fetch, s.pc, none, some s.pc, some 4, none⟩) ∧
  (∀ s : State, s.pc.toNat + 4 ≤ s.cfg.memSize →
    fetchUnit s = .word (s.mem.readByte s.pc.toNat ++ s.mem.readByte (s.pc.toNat + 1) ++ s.mem.readByte (s.pc.toNat + 2) ++
      s.mem.readByte (s.pc.toNat + 3)))

/-- 40 R132, 41 R170, 60 R243: an unrecognized word only advances `pc` and emits one anomaly; under STRICT_DECODE it is a
fault with code 2, which sets `pc` back to `pc_cur` (60 R247, the spec's decision 92 D16, log entry 12). -/
def Obligations.UnrecognizedWordIsAnomalyOrFault : Prop :=
  ∀ (s : State) (w : Word), FetchesWord s w → UnrecognizedWord w →
    (s.cfg.strictDecode = false →
      ∃ t, step s = .next t ∧ t.pc = s.pc + 4#32 ∧ t.events = s.events ++ [.anomaly .decodeAnomaly s.pc w none] ∧
        SameRegs s t ∧ SameMem s t ∧ t.run = .running ∧ t.tp = s.tp ∧ t.cfg = s.cfg ∧ t.input = s.input) ∧
    (s.cfg.strictDecode = true →
      ∃ t, step s = .next t ∧
        FaultTaken s t ⟨.decodeAnomaly, none, s.pc, some w, none, none, none⟩ ∧ ErrorKind.decodeAnomaly.code = 2)

/-- 10 R28, 60 R248: no step leaves Halted or Faulted. The stuck states that stand for "no step" are the model's choice (log
entry 4). -/
def Obligations.StoppedCoreHasNoStep : Prop :=
  ∀ s : State, s.run ≠ .running → ∀ t, step s ≠ .next t

/-- 43 R213, 60 R258: a running core has a next step, but while read-integer waits for the host; nothing is refused. Once the
host has answered, whatever it answers, the step goes on. That the answers are a list in the state is the model's choice (log
entry 3). -/
def Obligations.RunningCoreStepsUnlessAwaitingHost : Prop :=
  ∀ s : State, s.run = .running →
    (∃ t, step s = .next t) ∨
      (step s = .fault .awaitingHost ∧ s.input = [] ∧ s.x 2 = 0x00000005#32 ∧ s.pc ≠ s.tp ∧
        opOf (s.mem.readWord s.pc) = .SYSCALL ∧ ∀ a : HostAnswer, ∃ t, step (s.answer a) = .next t)

/-- 70 R288, R289: only the halt test sets Halted, only a fault sets Faulted, no instruction writes `run` otherwise, and
nothing else ends a run. That the fault is precise, with `pc` at the faulting address, is 60 R247 with the spec's decision 92
D16 (log entry 12). -/
def Obligations.RunEndsOnlyAtTpOrByFault : Prop :=
  (∀ s t : State, step s = .next t →
    t.run = .running ∨ (t.run = .halted ∧ s.pc = s.tp) ∨ (∃ rec, t.run = .faulted rec ∧ s.pc ≠ s.tp)) ∧
  (∀ (i : Instr) (s t : State), exec i s = .next t → t.run = s.run ∨ ∃ rec, t.run = .faulted rec ∧ FaultTaken s t rec)

/-- 60 R247: a step that faults keeps nothing of the instruction; `pc` is the faulting address (92 D16). That the host's answers
are a list in the state, and that NoValue stays in it, is the model's choice (log entry 3). -/
def Obligations.FaultsArePrecise : Prop :=
  ∀ (s t : State) (rec : FaultRecord), step s = .next t → t.run = .faulted rec →
    t.pc = s.pc ∧ rec.faultPc = s.pc ∧ t.events = s.events ++ [.stop (.faulted rec)] ∧ t.regs = s.regs ∧ t.mem = s.mem ∧
      t.tp = s.tp ∧ t.cfg = s.cfg ∧ t.input = s.input

/-- 60 R241 to R246: each kind of fault arises from its own cause and no other. The fields each record fills are the spec's
decision 92 D15 (log entry 12); that the host's NoValue is read from the list `input` is the model's choice (log entry 3). -/
def Obligations.FaultKindsHaveTheirCauses : Prop :=
  ∀ (s t : State) (rec : FaultRecord), s.cfg.WellFormed → step s = .next t → t.run = .faulted rec →
    rec.WellFormed ∧
    (rec.error = .memoryFault →
      (∃ a n, rec.addr = some a ∧ rec.size = some n ∧ s.inBounds a n = false) ∧
      ((rec.kind = some .fetch ∧ s.inBounds s.pc 4 = false) ∨
       (rec.kind = some .load ∧ (opOf (s.mem.readWord s.pc) = .LW ∨
          (opOf (s.mem.readWord s.pc) = .LHU ∧ s.cfg.lhuMode = .implement) ∨
          (opOf (s.mem.readWord s.pc) = .SYSCALL ∧ s.x 2 = 0x00000004#32 ∧ s.cfg.printStringMode = .implement))) ∨
       (rec.kind = some .store ∧ opOf (s.mem.readWord s.pc) = .SW))) ∧
    (rec.error = .decodeAnomaly → s.cfg.strictDecode = true ∧ opOf (s.mem.readWord s.pc) = .UNRECOGNIZED) ∧
    (rec.error = .unimplementedOpcode →
      (opOf (s.mem.readWord s.pc) = .LHU ∧ s.cfg.lhuMode = .fault ∧ rec.value = none) ∨
      (opOf (s.mem.readWord s.pc) = .SYSCALL ∧ s.x 2 = 0x00000004#32 ∧ s.cfg.printStringMode = .fault ∧
        rec.value = some (s.x 2))) ∧
    (rec.error = .inputFault →
      opOf (s.mem.readWord s.pc) = .SYSCALL ∧ s.x 2 = 0x00000005#32 ∧ ∃ rest, s.input = .noValue :: rest) ∧
    (rec.error = .unknownSyscall →
      s.cfg.strictDecode = true ∧ opOf (s.mem.readWord s.pc) = .SYSCALL ∧ rec.value = some (s.x 2) ∧
        s.x 2 ∉ [0x00000001#32, 0x00000004#32, 0x00000005#32, 0x0000000A#32])

/-- 10 R32: a step only appends to the event list, and by at most one event. -/
def Obligations.StepAppendsAtMostOneEvent : Prop :=
  ∀ s t : State, step s = .next t → t.events = s.events ∨ ∃ e, t.events = s.events ++ [e] ∧ e.WellFormed

/-- 10 R27: after the loader no step writes TP, and it stays at most MEM_SIZE; the configuration is not written either (log
entry 1). -/
def Obligations.TextPointerAndConfigurationNeverWritten : Prop :=
  (∀ (c : Config) (ws : List Word) (s : State), c.WellFormed → State.boot c ws = some s →
    s.tp.toNat = 4 * ws.length ∧ s.tp.toNat ≤ c.memSize ∧ s.cfg = c) ∧
  (∀ s t : State, step s = .next t → t.tp = s.tp ∧ t.cfg = s.cfg) ∧
  (∀ (i : Instr) (s t : State), exec i s = .next t → t.tp = s.tp ∧ t.cfg = s.cfg)

/-- 10 R27: besides the halt test only service 10 reads TP: any other instruction does the same whatever TP holds. -/
def Obligations.OnlyExitReadsTextPointer : Prop :=
  ∀ (i : Instr) (s : State) (v : Word), i.op ≠ .SYSCALL ∨ s.x 2 ≠ 0x0000000A#32 →
    (∀ t, exec i s = .next t → exec i { s with tp := v } = .next { t with tp := v }) ∧
    (∀ f, exec i s = .fault f → exec i { s with tp := v } = .fault f)

/-- 60 R249: the order of the checks. The halt test comes before the fetch check, the fetch check before decoding, decoding
before the rest, UnimplementedOpcode before the operand access; a step reports at most one thing. -/
def Obligations.ChecksRunInTheirOrder : Prop :=
  (∀ s : State, s.run = .running → s.pc = s.tp → ∃ t, step s = .next t ∧ t.run = .halted) ∧
  (∀ s : State, s.run = .running → s.pc ≠ s.tp → s.inBounds s.pc 4 = false →
    ∃ t rec, step s = .next t ∧ t.run = .faulted rec ∧ rec.error = .memoryFault ∧ rec.kind = some .fetch) ∧
  (∀ (s : State) (w : Word), FetchesWord s w → opOf w = .UNRECOGNIZED →
    ∃ t, step s = .next t ∧
      (t.events = s.events ++ [.anomaly .decodeAnomaly s.pc w none] ∨
        ∃ rec, t.run = .faulted rec ∧ rec.error = .decodeAnomaly)) ∧
  (∀ (rt rs : Reg) (imm : BitVec 16) (s : State), s.cfg.lhuMode = .fault →
    ∃ t rec, exec (.lhu rt imm rs) s = .next t ∧ t.run = .faulted rec ∧ rec.error = .unimplementedOpcode) ∧
  (∀ (g : BitVec 20) (s : State), s.x 2 = 0x00000004#32 → s.cfg.printStringMode = .fault →
    ∃ t rec, exec (.syscall g) s = .next t ∧ t.run = .faulted rec ∧ rec.error = .unimplementedOpcode) ∧
  (∀ s t : State, step s = .next t → t.events.length ≤ s.events.length + 1)

/-- 70 R290: `j` to its own address is an infinite loop that never halts. -/
def Obligations.JumpToItselfRunsForEver : Prop :=
  ∀ (s : State) (w : Word) (target : BitVec 26), FetchesWord s w → decode w = .instr (.j target) →
    target.setWidth 32 = s.pc →
    InfiniteRun (fun _ => s) ∧ ∀ n : Nat, Sys2Proof.core.run n s = .next s

/-- 70 R289, R290: there is no step limit. From a running core there is a run that never ends, or one that reaches a state that
has halted or faulted: no run is cut short, since the host may answer every read-integer request (60 R258, R259). The host's
answer as a list in the state is the model's choice (log entry 3). -/
def Obligations.RunIsInfiniteOrEndsFinished : Prop :=
  (∀ s : State, s.run = .running → ∃ t, Transition s t) ∧
  (∀ s t : State, s.finished = true → ¬ Transition s t) ∧
  (∀ s : State, s.run = .running →
    (∃ run : Nat → State, run 0 = s ∧ InfiniteRun run) ∨ ∃ t, Reaches s t ∧ t.finished = true)

/-! ### Invariants and reset -/

/-- 00 R6, 10 R21, R27, R33: every step keeps the machine invariant. -/
def Obligations.MachineInvariantKeptByStep : Prop :=
  ∀ s t : State, s.Inv → step s = .next t → t.Inv

/-- 10 R32, 60 R241, R247, 70 R284: every step keeps the stop invariant. -/
def Obligations.StopInvariantKeptByStep : Prop :=
  ∀ s t : State, s.StopInv → step s = .next t → t.StopInv

/-- The reset state meets both invariants. -/
def Obligations.ResetMeetsBothInvariants : Prop :=
  State.reset.Inv ∧ State.reset.StopInv

/-- 70 R280, R281: every state a run of a loaded program reaches meets both invariants, whatever the program, the build, the
answers the host gives beforehand and those it gives when asked. How a program is loaded is log entry 2, and the answers' form
log entry 3: the model's choices. -/
def Obligations.EveryReachedStateMeetsBothInvariants : Prop :=
  ∀ (c : Config) (ws : List Word) (answers : List HostAnswer) (s t : State), c.WellFormed → State.boot c ws = some s →
    Reaches { s with input := answers } t → t.Inv ∧ t.StopInv

/-- 70 R280, with the values of 10 R34 and the preload of 70 R281: the reset state, for every build and every program that
fits. -/
def Obligations.BootGivesTheResetValues : Prop :=
  ∀ (c : Config) (ws : List Word) (s : State), c.WellFormed → State.boot c ws = some s →
    (∀ r : Reg, r ≠ 29 → s.x r = 0x00000000#32) ∧ s.x 29 = c.spInit ∧ s.pc = 0x00000000#32 ∧
    s.tp.toNat = 4 * ws.length ∧ s.run = .running ∧ s.events = [] ∧
    (∀ i k : Nat, ∀ h : i < ws.length, k < 4 → s.mem.readByte (4 * i + k) = ws[i].extractLsb' (24 - 8 * k) 8) ∧
    (∀ a : Nat, 4 * ws.length ≤ a → s.mem.readByte a = 0x00#8)

/-- 00 R6, 70 R281: a program starts exactly when it fits (92 D21); `State.reset` is the default build with the empty program
(log entry 2), which halts at its first step. -/
def Obligations.ResetIsTheEmptyProgram : Prop :=
  (∀ (c : Config) (ws : List Word), (∃ s, State.boot c ws = some s) ↔ 4 * ws.length ≤ c.memSize) ∧
  State.boot Config.default [] = some State.reset ∧ State.reset.cfg.memSize = 8192 ∧ State.reset.x 29 = 0x00002000#32 ∧
  State.reset.tp = 0x00000000#32 ∧
  ∃ t, step State.reset = .next t ∧ t.run = .halted ∧ t.pc = 0x00000000#32 ∧ t.events = [.stop .halted]

/-! ### Registers and memory -/

/-- 10 R21: register 0 is an ordinary register, or, under R0_HARDWIRED, reads 0 and discards writes. -/
def Obligations.RegisterZeroFollowsTheParameter : Prop :=
  (∀ s : State, s.cfg.r0Hardwired = true → s.x 0 = 0x00000000#32 ∧ ∀ v, s.setX 0 v = s) ∧
  (∀ (s : State) (v : Word), s.cfg.r0Hardwired = false → (s.setX 0 v).x 0 = v) ∧
  (∀ (s : State) (imm : BitVec 16), s.cfg.r0Hardwired = true → exec (.addi 0 0 imm) s = .next s)

/-- 20 R50: the effective address modulo 2^32, and that checking it or the unbounded sum gives the same verdict, which the spec
marks as its own inference ("[derived: from this rule and rule R51]"). -/
def Obligations.BoundsCheckReadingsAgree : Prop :=
  ∀ (s : State) (base : Word) (imm : BitVec 16),
    (-2 ^ 31 - 2 ^ 15 ≤ base.toInt + (imm.signExtend 32).toInt ∧
      base.toInt + (imm.signExtend 32).toInt ≤ 2 ^ 31 + 2 ^ 15 - 2) ∧
    (0 ≤ base.toInt + (imm.signExtend 32).toInt →
      ((base + imm.signExtend 32).toNat : Int) = base.toInt + (imm.signExtend 32).toInt) ∧
    (base.toInt + (imm.signExtend 32).toInt < 0 →
      ((base + imm.signExtend 32).toNat : Int) = base.toInt + (imm.signExtend 32).toInt + 2 ^ 32 ∧
      2 ^ 31 - 2 ^ 15 ≤ (base + imm.signExtend 32).toNat) ∧
    (∀ n : Nat, 0 < n → s.cfg.memSize ≤ 2 ^ 31 - 2 ^ 15 →
      (s.inBounds (base + imm.signExtend 32) n = true ↔
        0 ≤ base.toInt + (imm.signExtend 32).toInt ∧
          base.toInt + (imm.signExtend 32).toInt + (n : Int) ≤ (s.cfg.memSize : Int)))

/-- 20 R52, R53: the big-endian layout seen by accesses of other widths and by overlapping accesses; the spec marks R53 as its
own inference ("[derived: from rule R52]"). -/
def Obligations.MixedWidthAccessesSeeBigEndian : Prop :=
  (∀ (m : Memory) (a : Nat) (v : Word),
    (m.write a 4 v).read a 2 = v.extractLsb' 16 16 ∧ (m.write a 4 v).read (a + 2) 2 = v.extractLsb' 0 16 ∧
    (∀ k : Nat, k < 4 → (m.write a 4 v).readByte (a + k) = v.extractLsb' (24 - 8 * k) 8) ∧
    (m.write a 4 v).read a 4 = v ∧
    (∀ c : Nat, c < a ∨ a + 4 ≤ c → (m.write a 4 v).readByte c = m.readByte c)) ∧
  (∀ (m : Memory) (a : Nat) (v u : Word),
    ((m.write a 4 v).write (a + 4) 4 u).read (a + 2) 4 = v.extractLsb' 0 16 ++ u.extractLsb' 16 16) ∧
  (∀ m : Memory, ((m.write 0x100 4 0x11223344#32).write 0x104 4 0x55667788#32).read 0x102 4 = 0x33445566#32)

/-- 20 R60: a word stored at an address and loaded from it is the original word, for any address in bounds. -/
def Obligations.StoreThenLoadReturnsTheWord : Prop :=
  ∀ (rt rs rt' rs' : Reg) (imm imm' : BitVec 16) (s : State),
    (s.x rs + imm.signExtend 32).toNat + 4 ≤ s.cfg.memSize → s.x rs' + imm'.signExtend 32 = s.x rs + imm.signExtend 32 →
    ∃ t u, exec (.sw rt imm rs) s = .next t ∧ exec (.lw rt' imm' rs') t = .next u ∧ WritesReg s u rt' (s.x rt)

/-- 20 R63, which the spec marks as its own inference: a stored word is what the very next fetch of its address reads and
runs. -/
def Obligations.StoreIsSeenByTheNextFetch : Prop :=
  ∀ (rt rs : Reg) (imm : BitVec 16) (s : State) (i : Instr),
    s.run = .running → (s.x rs + imm.signExtend 32).toNat + 4 ≤ s.cfg.memSize → s.x rs + imm.signExtend 32 ≠ s.tp →
    decode (s.x rt) = .instr i →
    ∃ t, exec (.sw rt imm rs) s = .next t ∧ t.tp = s.tp ∧
      step { t with pc := s.x rs + imm.signExtend 32 } = exec i { t with pc := s.x rs + imm.signExtend 32 + 4#32 }

/-- 10 R22: an instruction writes no register but its destination, and syscall writes `x[2]` for service 5 only. -/
def Obligations.OnlyTheDestinationRegisterChanges : Prop :=
  (∀ (i : Instr) (s t : State) (r : Reg), exec i s = .next t → i.dest ≠ some r → t.x r = s.x r) ∧
  (∀ (g : BitVec 20) (s t : State), exec (.syscall g) s = .next t → s.x 2 ≠ 0x00000005#32 → SameRegs s t)

/-- 10 R22: what an instruction does depends on no register but its sources. Two states that agree outside the registers and
on the sources have the same outcome, and each register ends with the same value in both or unchanged in both. -/
def Obligations.OnlySourceRegistersMatter : Prop :=
  ∀ (i : Instr) (s₁ s₂ : State), AgreeOutsideRegs s₁ s₂ → (∀ r ∈ i.sources (s₁.x 2), s₁.x r = s₂.x r) →
    (∀ t₁, exec i s₁ = .next t₁ → ∃ t₂, exec i s₂ = .next t₂ ∧ AgreeOutsideRegs t₁ t₂ ∧
      ∀ r : Reg, t₁.x r = t₂.x r ∨ (t₁.x r = s₁.x r ∧ t₂.x r = s₂.x r)) ∧
    (∀ f, exec i s₁ = .fault f → exec i s₂ = .fault f)

/-- 20 R56: sw is the only instruction that changes memory, and it changes the four bytes at its effective address at most. -/
def Obligations.OnlyStoreWordChangesMemory : Prop :=
  (∀ (i : Instr) (s t : State), exec i s = .next t → i.op ≠ .SW → SameMem s t) ∧
  (∀ (rt rs : Reg) (imm : BitVec 16) (s t : State), exec (.sw rt imm rs) s = .next t →
    SameMemOutside s t (s.x rs + imm.signExtend 32).toNat 4)

/-- 10 R26, 70 R287: the next `pc` is one of the listed values, or `pc_cur` on a fault. -/
def Obligations.NextPcIsOneOfTheListed : Prop :=
  ∀ (i : Instr) (s t : State), exec i s = .next t →
    t.pc ∈ i.nextPcs s ∨ (t.pc = s.pc - 4#32 ∧ ∃ rec, t.run = .faulted rec)

/-- 30 R86: operand assembly, each operand from its bits of the word, and the shift count as sll and sra take it. -/
def Obligations.OperandsAreAssembledAsListed : Prop :=
  (∀ imm : BitVec 16, (simm imm).toInt = imm.toInt ∧ (branchTarget imm).toInt = imm.toInt ∧
    luiValue imm = imm ++ 0x0000#16 ∧ luiValue imm = imm.setWidth 32 <<< 16) ∧
  (∀ target : BitVec 26, (jumpTarget target).toNat = target.toNat) ∧
  (∀ w : Word, (simm (immField w)).toInt = (BitVec.ofNat 16 (w.toNat % 2 ^ 16)).toInt ∧
    (jumpTarget (targetField w)).toNat = w.toNat % 2 ^ 26 ∧
    (shamtField w).toNat = w.toNat / 2 ^ 6 % 2 ^ 5 ∧ (shamtField w).toNat ≤ 31) ∧
  (∀ (w : Word) (rd rt : Reg) (shamt : Nat) (g : BitVec 5),
    decode w = .instr (.sll rd rt shamt g) ∨ decode w = .instr (.sra rd rt shamt g) →
      shamt = w.toNat / 2 ^ 6 % 2 ^ 5)

/-! ### Register-type instructions -/

/-- 40 R120: sll. That dropped bits are lost modulo 2^32 is the spec's decision 92 D7 (log entry 12). That counts of 32 or more,
which no word encodes, follow the same formula is the model's choice (log entry 11). -/
def Obligations.SllWritesShiftedValue : Prop :=
  RowDecodes 0xFC00003F#32 0x00000000#32
    (fun w => .sll (regOf (rdField w)) (regOf (rtField w)) (shamtField w).toNat (rsField w)) ∧
  ∀ (rd rt : Reg) (shamt : Nat) (g : BitVec 5) (s : State),
    ∃ t, exec (.sll rd rt shamt g) s = .next t ∧
      RegisterWritten s t rd (BitVec.ofNat 32 ((s.x rt).toNat * 2 ^ shamt))

/-- 40 R121: sra is the floor of the division by 2^shamt, bit 31 copied in from the left. That counts of 32 or more, which no
word encodes, follow the same formula is the model's choice (log entry 11). -/
def Obligations.SraWritesFlooredQuotient : Prop :=
  RowDecodes 0xFC00003F#32 0x00000003#32
    (fun w => .sra (regOf (rdField w)) (regOf (rtField w)) (shamtField w).toNat (rsField w)) ∧
  ∀ (rd rt : Reg) (shamt : Nat) (g : BitVec 5) (s : State),
    ∃ t v, exec (.sra rd rt shamt g) s = .next t ∧ RegisterWritten s t rd v ∧
      v = BitVec.ofInt 32 ((s.x rt).toInt / 2 ^ shamt) ∧
      ∀ i : Nat, i < 32 → v.getLsbD i = (s.x rt).getLsbD (min (i + shamt) 31)

/-- 40 R122: jr, no alignment check and no delay slot; the next step checks the target. R122's remark that a negative target
cannot equal TP is not stated: it fails for TP = MEM_SIZE = 2^31 (log entry 9). -/
def Obligations.JrSetsPcToRegister : Prop :=
  RowDecodes 0xFC00003F#32 0x00000008#32
    (fun w => .jr (regOf (rsField w)) (rtField w ++ rdField w ++ shamtField w)) ∧
  ∀ (rs : Reg) (g : BitVec 15) (s : State),
    ∃ t, exec (.jr rs g) s = .next t ∧ PcOnly s t (s.x rs) ∧ NextStepChecksTarget t

/-- 40 R123, R124, R125: add, addu and sub wrap modulo 2^32 without a trap, addu is add, and funct 0x23 is no subtraction. -/
def Obligations.AddAndSubWrapModulo : Prop :=
  RowDecodes 0xFC00003F#32 0x00000020#32
    (fun w => .add (regOf (rdField w)) (regOf (rsField w)) (regOf (rtField w)) (shamtField w)) ∧
  RowDecodes 0xFC00003F#32 0x00000021#32
    (fun w => .addu (regOf (rdField w)) (regOf (rsField w)) (regOf (rtField w)) (shamtField w)) ∧
  RowDecodes 0xFC00003F#32 0x00000022#32
    (fun w => .sub (regOf (rdField w)) (regOf (rsField w)) (regOf (rtField w)) (shamtField w)) ∧
  ∀ (rd rs rt : Reg) (g : BitVec 5) (s : State),
    (∃ t, exec (.add rd rs rt g) s = .next t ∧
      RegisterWritten s t rd (BitVec.ofInt 32 ((s.x rs).toInt + (s.x rt).toInt))) ∧
    (∃ t, exec (.addu rd rs rt g) s = .next t ∧
      RegisterWritten s t rd (BitVec.ofInt 32 ((s.x rs).toInt + (s.x rt).toInt))) ∧
    (∃ t, exec (.sub rd rs rt g) s = .next t ∧
      RegisterWritten s t rd (BitVec.ofInt 32 ((s.x rs).toInt - (s.x rt).toInt))) ∧
    exec (.addu rd rs rt g) s = exec (.add rd rs rt g) s ∧
    (∀ w : Word, w &&& 0xFC00003F#32 = 0x00000023#32 → decode w = .unrecognizedFunct)

/-- 40 R126, R127, R128: and, or and nor, bit by bit. -/
def Obligations.LogicWritesBitwiseResult : Prop :=
  RowDecodes 0xFC00003F#32 0x00000024#32
    (fun w => .and (regOf (rdField w)) (regOf (rsField w)) (regOf (rtField w)) (shamtField w)) ∧
  RowDecodes 0xFC00003F#32 0x00000025#32
    (fun w => .or (regOf (rdField w)) (regOf (rsField w)) (regOf (rtField w)) (shamtField w)) ∧
  RowDecodes 0xFC00003F#32 0x00000027#32
    (fun w => .nor (regOf (rdField w)) (regOf (rsField w)) (regOf (rtField w)) (shamtField w)) ∧
  ∀ (rd rs rt : Reg) (g : BitVec 5) (s : State),
    (∃ t v, exec (.and rd rs rt g) s = .next t ∧ RegisterWritten s t rd v ∧
      ∀ i : Nat, i < 32 → v.getLsbD i = ((s.x rs).getLsbD i && (s.x rt).getLsbD i)) ∧
    (∃ t v, exec (.or rd rs rt g) s = .next t ∧ RegisterWritten s t rd v ∧
      ∀ i : Nat, i < 32 → v.getLsbD i = ((s.x rs).getLsbD i || (s.x rt).getLsbD i)) ∧
    (∃ t v, exec (.nor rd rs rt g) s = .next t ∧ RegisterWritten s t rd v ∧
      ∀ i : Nat, i < 32 → v.getLsbD i = !((s.x rs).getLsbD i || (s.x rt).getLsbD i))

/-- 40 R129, R130: slt compares signed, sltu unsigned; they agree where the operands have the same bit 31. -/
def Obligations.SetLessThanWritesOneOrZero : Prop :=
  RowDecodes 0xFC00003F#32 0x0000002A#32
    (fun w => .slt (regOf (rdField w)) (regOf (rsField w)) (regOf (rtField w)) (shamtField w)) ∧
  RowDecodes 0xFC00003F#32 0x0000002B#32
    (fun w => .sltu (regOf (rdField w)) (regOf (rsField w)) (regOf (rtField w)) (shamtField w)) ∧
  (∀ (rd rs rt : Reg) (g : BitVec 5) (s : State),
    (∃ t, exec (.slt rd rs rt g) s = .next t ∧
      RegisterWritten s t rd (if (s.x rs).toInt < (s.x rt).toInt then 0x00000001#32 else 0x00000000#32)) ∧
    (∃ t, exec (.sltu rd rs rt g) s = .next t ∧
      RegisterWritten s t rd (if (s.x rs).toNat < (s.x rt).toNat then 0x00000001#32 else 0x00000000#32))) ∧
  (∀ (rd rs rt : Reg) (g : BitVec 5) (s : State), (s.x rs).msb = (s.x rt).msb →
    exec (.slt rd rs rt g) s = exec (.sltu rd rs rt g) s)

/-! ### Immediate-type instructions -/

/-- 41 R160, R161: beq and bne. The target is absolute; untaken, `pc` stays at `pc_cur + 4`; a target with bit 15 set always
faults at the fetch. -/
def Obligations.BranchesGoToAbsoluteTarget : Prop :=
  RowDecodes 0xFC000000#32 0x10000000#32 (fun w => .beq (regOf (rsField w)) (regOf (rtField w)) (immField w)) ∧
  RowDecodes 0xFC000000#32 0x14000000#32 (fun w => .bne (regOf (rsField w)) (regOf (rtField w)) (immField w)) ∧
  (∀ (rs rt : Reg) (imm : BitVec 16) (s : State),
    (∃ t, exec (.beq rs rt imm) s = .next t ∧
      PcOnly s t (if s.x rs = s.x rt then BitVec.ofInt 32 imm.toInt else s.pc) ∧ NextStepChecksTarget t) ∧
    (∃ t, exec (.bne rs rt imm) s = .next t ∧
      PcOnly s t (if s.x rs = s.x rt then s.pc else BitVec.ofInt 32 imm.toInt) ∧ NextStepChecksTarget t)) ∧
  (∀ imm : BitVec 16, (imm.toNat < 0x8000 → (BitVec.ofInt 32 imm.toInt).toNat = imm.toNat) ∧
    (0x8000 ≤ imm.toNat → 0xFFFF8000 ≤ (BitVec.ofInt 32 imm.toInt).toNat)) ∧
  (∀ (imm : BitVec 16) (t : State), 0x8000 ≤ imm.toNat → t.Inv → t.run = .running → t.pc = BitVec.ofInt 32 imm.toInt →
    ∃ u, step t = .next u ∧ FaultTaken t u ⟨.memoryFault, some .fetch, t.pc, none, some t.pc, some 4, none⟩)

/-- 41 R162, R163: addi wraps without a trap (92 D8); slti compares signed, and opcode 0x0B is no unsigned variant. -/
def Obligations.AddiAndSltiUseTheSignedImmediate : Prop :=
  RowDecodes 0xFC000000#32 0x20000000#32 (fun w => .addi (regOf (rtField w)) (regOf (rsField w)) (immField w)) ∧
  RowDecodes 0xFC000000#32 0x28000000#32 (fun w => .slti (regOf (rtField w)) (regOf (rsField w)) (immField w)) ∧
  ∀ (rt rs : Reg) (imm : BitVec 16) (s : State),
    (∃ t, exec (.addi rt rs imm) s = .next t ∧
      RegisterWritten s t rt (BitVec.ofInt 32 ((s.x rs).toInt + imm.toInt))) ∧
    (∃ t, exec (.slti rt rs imm) s = .next t ∧
      RegisterWritten s t rt (if (s.x rs).toInt < imm.toInt then 0x00000001#32 else 0x00000000#32)) ∧
    (∀ w : Word, w &&& 0xFC000000#32 = 0x2C000000#32 → decode w = .unrecognizedOpcode)

/-- 41 R164, R165: andi and ori extend the sign of the immediate; bits 15 to 0 meet the immediate, bits 31 to 16 its bit 15. -/
def Obligations.LogicImmediatesSignExtend : Prop :=
  RowDecodes 0xFC000000#32 0x30000000#32 (fun w => .andi (regOf (rtField w)) (regOf (rsField w)) (immField w)) ∧
  RowDecodes 0xFC000000#32 0x34000000#32 (fun w => .ori (regOf (rtField w)) (regOf (rsField w)) (immField w)) ∧
  ∀ (rt rs : Reg) (imm : BitVec 16) (s : State),
    (∃ t v, exec (.andi rt rs imm) s = .next t ∧ RegisterWritten s t rt v ∧
      ∀ i : Nat, i < 32 → v.getLsbD i = ((s.x rs).getLsbD i && imm.getLsbD (min i 15))) ∧
    (∃ t v, exec (.ori rt rs imm) s = .next t ∧ RegisterWritten s t rt v ∧
      ∀ i : Nat, i < 32 → v.getLsbD i = ((s.x rs).getLsbD i || imm.getLsbD (min i 15)))

/-- 41 R166: lui. -/
def Obligations.LuiWritesUpperHalf : Prop :=
  RowDecodes 0xFC000000#32 0x3C000000#32 (fun w => .lui (regOf (rtField w)) (immField w) (rsField w)) ∧
  ∀ (rt : Reg) (imm : BitVec 16) (g : BitVec 5) (s : State),
    ∃ t, exec (.lui rt imm g) s = .next t ∧ RegisterWritten s t rt (imm ++ 0x0000#16)

/-- 41 R167: lw, in bounds and out of bounds. That the fault sets `pc` back to `pc_cur` is 60 R247 with the spec's decision 92
D16 (log entry 12). -/
def Obligations.LoadWordReadsOrFaults : Prop :=
  RowDecodes 0xFC000000#32 0x8C000000#32 (fun w => .lw (regOf (rtField w)) (immField w) (regOf (rsField w))) ∧
  (∀ (rt rs : Reg) (imm : BitVec 16) (s : State) (ea : Word), ea = s.x rs + imm.signExtend 32 →
    ea.toNat + 4 ≤ s.cfg.memSize →
    ∃ t, exec (.lw rt imm rs) s = .next t ∧
      RegisterWritten s t rt (s.mem.readByte ea.toNat ++ s.mem.readByte (ea.toNat + 1) ++ s.mem.readByte (ea.toNat + 2) ++
        s.mem.readByte (ea.toNat + 3))) ∧
  (∀ (rt rs : Reg) (imm : BitVec 16) (s : State) (ea : Word), ea = s.x rs + imm.signExtend 32 →
    ¬ (ea.toNat + 4 ≤ s.cfg.memSize) →
    ∃ t, exec (.lw rt imm rs) s = .next t ∧
      FaultTaken s t ⟨.memoryFault, some .load, s.pc - 4#32, some (encode (.lw rt imm rs)), some ea, some 4, none⟩)

/-- 41 R168: lhu in both modes (92 D11); in `fault` mode the address is not looked at. That a fault sets `pc` back to `pc_cur`
is 60 R247 with the spec's decision 92 D16 (log entry 12). -/
def Obligations.LoadHalfwordReadsOrFaults : Prop :=
  RowDecodes 0xFC000000#32 0x94000000#32 (fun w => .lhu (regOf (rtField w)) (immField w) (regOf (rsField w))) ∧
  (∀ (rt rs : Reg) (imm : BitVec 16) (s : State) (ea : Word), ea = s.x rs + imm.signExtend 32 →
    s.cfg.lhuMode = .implement → ea.toNat + 2 ≤ s.cfg.memSize →
    ∃ t, exec (.lhu rt imm rs) s = .next t ∧
      RegisterWritten s t rt (0x0000#16 ++ s.mem.readByte ea.toNat ++ s.mem.readByte (ea.toNat + 1))) ∧
  (∀ (rt rs : Reg) (imm : BitVec 16) (s : State) (ea : Word), ea = s.x rs + imm.signExtend 32 →
    s.cfg.lhuMode = .implement → ¬ (ea.toNat + 2 ≤ s.cfg.memSize) →
    ∃ t, exec (.lhu rt imm rs) s = .next t ∧
      FaultTaken s t ⟨.memoryFault, some .load, s.pc - 4#32, some (encode (.lhu rt imm rs)), some ea, some 2, none⟩) ∧
  (∀ (rt rs : Reg) (imm : BitVec 16) (s : State), s.cfg.lhuMode = .fault →
    ∃ t, exec (.lhu rt imm rs) s = .next t ∧
      FaultTaken s t ⟨.unimplementedOpcode, none, s.pc - 4#32, some (encode (.lhu rt imm rs)), none, none, none⟩)

/-- 41 R169: sw, in bounds and out of bounds; out of bounds no byte is written. That the fault sets `pc` back to `pc_cur` is 60
R247 with the spec's decision 92 D16 (log entry 12). -/
def Obligations.StoreWordWritesOrFaults : Prop :=
  RowDecodes 0xFC000000#32 0xAC000000#32 (fun w => .sw (regOf (rtField w)) (immField w) (regOf (rsField w))) ∧
  (∀ (rt rs : Reg) (imm : BitVec 16) (s : State) (ea : Word), ea = s.x rs + imm.signExtend 32 →
    ea.toNat + 4 ≤ s.cfg.memSize →
    ∃ t, exec (.sw rt imm rs) s = .next t ∧
      (∀ k : Nat, k < 4 → t.mem.readByte (ea.toNat + k) = (s.x rt).extractLsb' (24 - 8 * k) 8) ∧
      SameMemOutside s t ea.toNat 4 ∧ SameRegs s t ∧ t.pc = s.pc ∧ SameControl s t) ∧
  (∀ (rt rs : Reg) (imm : BitVec 16) (s : State) (ea : Word), ea = s.x rs + imm.signExtend 32 →
    ¬ (ea.toNat + 4 ≤ s.cfg.memSize) →
    ∃ t, exec (.sw rt imm rs) s = .next t ∧
      FaultTaken s t ⟨.memoryFault, some .store, s.pc - 4#32, some (encode (.sw rt imm rs)), some ea, some 4, none⟩)

/-! ### Jump-type instructions -/

/-- 42 R200, R201: j and jal go to the unscaled absolute target; jal links `pc_cur + 4` in register 31 in every build. -/
def Obligations.JumpsGoToAbsoluteTargetAndJalLinks : Prop :=
  RowDecodes 0xFC000000#32 0x08000000#32 (fun w => .j (targetField w)) ∧
  RowDecodes 0xFC000000#32 0x0C000000#32 (fun w => .jal (targetField w)) ∧
  ∀ (target : BitVec 26) (s : State),
    (∃ t, exec (.j target) s = .next t ∧ PcOnly s t (BitVec.ofNat 32 target.toNat) ∧ NextStepChecksTarget t) ∧
    (∃ t, exec (.jal target) s = .next t ∧ t.x 31 = s.pc ∧ (∀ r : Reg, r ≠ 31 → t.x r = s.x r) ∧
      t.pc = BitVec.ofNat 32 target.toNat ∧ SameMem s t ∧ SameControl s t ∧ NextStepChecksTarget t)

/-! ### System-call services -/

/-- 43 R210: the service is selected by all 32 bits of `x[2]`. Every word of the syscall row is a syscall (40 R131). That the
events show which service ran, and that no event means service 10, rests on 43 R211 to R215 with the spec's decisions 92 D14
and D20 (log entry 12). -/
def Obligations.SyscallSelectsServiceByWholeX2 : Prop :=
  RowDecodes 0xFC00003F#32 0x0000000C#32
    (fun w => .syscall (rsField w ++ rtField w ++ rdField w ++ shamtField w)) ∧
  (∀ (g : BitVec 20) (s : State),
    (s.x 2 = 0x00000001#32 → exec (.syscall g) s = servicePrintInt s) ∧
    (s.x 2 = 0x00000004#32 → exec (.syscall g) s = servicePrintString (encode (.syscall g)) s) ∧
    (s.x 2 = 0x00000005#32 → exec (.syscall g) s = serviceReadInt (encode (.syscall g)) s) ∧
    (s.x 2 = 0x0000000A#32 → exec (.syscall g) s = serviceExit s) ∧
    (s.x 2 ∉ [0x00000001#32, 0x00000004#32, 0x00000005#32, 0x0000000A#32] →
      exec (.syscall g) s = serviceUnknown (encode (.syscall g)) s)) ∧
  ∀ (g : BitVec 20) (s t : State), exec (.syscall g) s = .next t →
    ((∃ v, t.events = s.events ++ [.printInt v]) → s.x 2 = 0x00000001#32) ∧
    ((∃ bytes, t.events = s.events ++ [.printString bytes]) → s.x 2 = 0x00000004#32) ∧
    ((∃ v, t.events = s.events ++ [.readInt v]) → s.x 2 = 0x00000005#32) ∧
    ((∃ k p w v, t.events = s.events ++ [.anomaly k p w v]) →
      s.x 2 ∉ [0x00000001#32, 0x00000004#32, 0x00000005#32, 0x0000000A#32]) ∧
    (t.events = s.events → s.x 2 = 0x0000000A#32)

/-- 43 R211: service 1 hands the host the signed value and changes nothing else. -/
def Obligations.PrintIntEmitsSignedValue : Prop :=
  ∀ (g : BitVec 20) (s : State), s.x 2 = 0x00000001#32 →
    ∃ t, exec (.syscall g) s = .next t ∧ EventOnly s t (.printInt (s.x 4).toInt)

/-- 43 R212: service 4 in `fault` mode, and in `implement` mode with and without a NUL before the end of memory. -/
def Obligations.PrintStringEmitsOrFaults : Prop :=
  (∀ (g : BitVec 20) (s : State), s.x 2 = 0x00000004#32 → s.cfg.printStringMode = .fault →
    ∃ t, exec (.syscall g) s = .next t ∧
      FaultTaken s t ⟨.unimplementedOpcode, none, s.pc - 4#32, some (encode (.syscall g)), none, none, some (s.x 2)⟩) ∧
  (∀ (g : BitVec 20) (s : State) (n : Nat), s.x 2 = 0x00000004#32 → s.cfg.printStringMode = .implement →
    (s.x 4).toNat + n < s.cfg.memSize → (∀ k : Nat, k < n → s.mem.readByte ((s.x 4).toNat + k) ≠ 0x00#8) →
    s.mem.readByte ((s.x 4).toNat + n) = 0x00#8 →
    ∃ t, exec (.syscall g) s = .next t ∧
      EventOnly s t (.printString ((List.range n).map fun k => s.mem.readByte ((s.x 4).toNat + k)))) ∧
  (∀ (g : BitVec 20) (s : State), s.x 2 = 0x00000004#32 → s.cfg.printStringMode = .implement →
    (∀ a : Nat, (s.x 4).toNat ≤ a → a < s.cfg.memSize → s.mem.readByte a ≠ 0x00#8) →
    ∃ t, exec (.syscall g) s = .next t ∧
      FaultTaken s t ⟨.memoryFault, some .load, s.pc - 4#32, some (encode (.syscall g)),
        some (BitVec.ofNat 32 (max (s.x 4).toNat s.cfg.memSize)), some 1, none⟩)

/-- 43 R213, 60 R245 (92 D18), R258: service 5 with the host's value, with NoValue, and with no answer. That the answers are a
list in the state, and that NoValue stays in it, is the model's choice (log entry 3). -/
def Obligations.ReadIntTakesTheHostsAnswer : Prop :=
  (∀ (g : BitVec 20) (s : State) (v : Word) (rest : List HostAnswer), s.x 2 = 0x00000005#32 →
    s.input = .value v :: rest →
    ∃ t, exec (.syscall g) s = .next t ∧ t.x 2 = v ∧ (∀ r : Reg, r ≠ 2 → t.x r = s.x r) ∧
      t.events = s.events ++ [.readInt v] ∧ t.input = rest ∧ t.pc = s.pc ∧ SameMem s t ∧ t.cfg = s.cfg ∧ t.tp = s.tp ∧
      t.run = s.run) ∧
  (∀ (g : BitVec 20) (s : State) (rest : List HostAnswer), s.x 2 = 0x00000005#32 → s.input = .noValue :: rest →
    ∃ t, exec (.syscall g) s = .next t ∧
      FaultTaken s t ⟨.inputFault, none, s.pc - 4#32, some (encode (.syscall g)), none, none, none⟩ ∧
      ErrorKind.inputFault.code = 4) ∧
  (∀ (g : BitVec 20) (s : State), s.x 2 = 0x00000005#32 → s.input = [] →
    exec (.syscall g) s = .fault .awaitingHost)

/-- 43 R214: service 10 sets `pc` to TP, and a running core halts at the next step. -/
def Obligations.ExitSetsPcToTpAndNextStepHalts : Prop :=
  ∀ (g : BitVec 20) (s : State), s.x 2 = 0x0000000A#32 →
    ∃ t, exec (.syscall g) s = .next t ∧ PcOnly s t s.tp ∧
      (s.run = .running → ∃ u, step t = .next u ∧ u.run = .halted ∧ u.pc = s.tp ∧
        u.events = s.events ++ [.stop .halted] ∧ SameRegs s u ∧ SameMem s u)

/-- 43 R215, 60 R246: any other service number is an anomaly, fatal with code 5 under STRICT_DECODE. -/
def Obligations.UnknownServiceIsAnomalyOrFault : Prop :=
  ∀ (g : BitVec 20) (s : State), s.x 2 ∉ [0x00000001#32, 0x00000004#32, 0x00000005#32, 0x0000000A#32] →
    (s.cfg.strictDecode = false →
      ∃ t, exec (.syscall g) s = .next t ∧
        EventOnly s t (.anomaly .unknownSyscall (s.pc - 4#32) (encode (.syscall g)) (some (s.x 2)))) ∧
    (s.cfg.strictDecode = true →
      ∃ t, exec (.syscall g) s = .next t ∧
        FaultTaken s t ⟨.unknownSyscall, none, s.pc - 4#32, some (encode (.syscall g)), none, none, some (s.x 2)⟩ ∧
        ErrorKind.unknownSyscall.code = 5)
end

