-- ==== Sys2Proof/Laws/Decode.lean ====
section
/-!
SUPPORT. The laws of the decoder and the encoders: what each field of an encoded word reads, that a word is its fields side by
side, and what a row of the opcode table says of a word's fields.
-/
namespace Sys2Proof

/-! ### Bits of a word -/

theorem getLsbD_encR (rs rt rd shamt : BitVec 5) (funct : BitVec 6) (i : Nat) :
    (encR rs rt rd shamt funct).getLsbD i =
      if i < 6 then funct.getLsbD i
      else if i - 6 < 5 then shamt.getLsbD (i - 6)
      else if i - 6 - 5 < 5 then rd.getLsbD (i - 6 - 5)
      else if i - 6 - 5 - 5 < 5 then rt.getLsbD (i - 6 - 5 - 5)
      else if i - 6 - 5 - 5 - 5 < 5 then rs.getLsbD (i - 6 - 5 - 5 - 5)
      else (0x00#6).getLsbD (i - 6 - 5 - 5 - 5 - 5) := by
  show (0x00#6 ++ rs ++ rt ++ rd ++ shamt ++ funct).getLsbD i = _
  rw [BitVec.getLsbD_append, BitVec.getLsbD_append, BitVec.getLsbD_append, BitVec.getLsbD_append, BitVec.getLsbD_append]

theorem getLsbD_encI (opcode : BitVec 6) (rs rt : BitVec 5) (imm : BitVec 16) (i : Nat) :
    (encI opcode rs rt imm).getLsbD i =
      if i < 16 then imm.getLsbD i
      else if i - 16 < 5 then rt.getLsbD (i - 16)
      else if i - 16 - 5 < 5 then rs.getLsbD (i - 16 - 5)
      else opcode.getLsbD (i - 16 - 5 - 5) := by
  show (opcode ++ rs ++ rt ++ imm).getLsbD i = _
  rw [BitVec.getLsbD_append, BitVec.getLsbD_append, BitVec.getLsbD_append]

theorem getLsbD_encJ (opcode : BitVec 6) (target : BitVec 26) (i : Nat) :
    (encJ opcode target).getLsbD i = if i < 26 then target.getLsbD i else opcode.getLsbD (i - 26) := by
  show (opcode ++ target).getLsbD i = _
  rw [BitVec.getLsbD_append]

/-- A field read of a value is a value when their bits agree. -/
theorem extract_eq {w : Word} {k n : Nat} {v : BitVec n} (h : ∀ j < n, w.getLsbD (k + j) = v.getLsbD j) :
    w.extractLsb' k n = v := by
  ext j hj
  rw [BitVec.getElem_extractLsb', h j hj, BitVec.getLsbD_eq_getElem hj]

/-! ### Fields of an encoded word (30 R98) -/

section R
variable (rs rt rd shamt : BitVec 5) (funct : BitVec 6)

@[simp] theorem opcodeField_encR : opcodeField (encR rs rt rd shamt funct) = 0x00#6 :=
  extract_eq fun j hj => by
    rw [getLsbD_encR, if_neg (by omega), if_neg (by omega), if_neg (by omega), if_neg (by omega), if_neg (by omega)]
    congr 1; omega

@[simp] theorem rsField_encR : rsField (encR rs rt rd shamt funct) = rs :=
  extract_eq fun j hj => by
    rw [getLsbD_encR, if_neg (by omega), if_neg (by omega), if_neg (by omega), if_neg (by omega), if_pos (by omega)]
    congr 1; omega

@[simp] theorem rtField_encR : rtField (encR rs rt rd shamt funct) = rt :=
  extract_eq fun j hj => by
    rw [getLsbD_encR, if_neg (by omega), if_neg (by omega), if_neg (by omega), if_pos (by omega)]
    congr 1; omega

@[simp] theorem rdField_encR : rdField (encR rs rt rd shamt funct) = rd :=
  extract_eq fun j hj => by
    rw [getLsbD_encR, if_neg (by omega), if_neg (by omega), if_pos (by omega)]
    congr 1; omega

@[simp] theorem shamtField_encR : shamtField (encR rs rt rd shamt funct) = shamt :=
  extract_eq fun j hj => by
    rw [getLsbD_encR, if_neg (by omega), if_pos (by omega)]
    congr 1; omega

@[simp] theorem functField_encR : functField (encR rs rt rd shamt funct) = funct :=
  extract_eq fun j hj => by
    rw [getLsbD_encR, if_pos (by omega)]
    congr 1; omega

end R

section I
variable (opcode : BitVec 6) (rs rt : BitVec 5) (imm : BitVec 16)

@[simp] theorem opcodeField_encI : opcodeField (encI opcode rs rt imm) = opcode :=
  extract_eq fun j hj => by
    rw [getLsbD_encI, if_neg (by omega), if_neg (by omega), if_neg (by omega)]
    congr 1; omega

@[simp] theorem rsField_encI : rsField (encI opcode rs rt imm) = rs :=
  extract_eq fun j hj => by
    rw [getLsbD_encI, if_neg (by omega), if_neg (by omega), if_pos (by omega)]
    congr 1; omega

@[simp] theorem rtField_encI : rtField (encI opcode rs rt imm) = rt :=
  extract_eq fun j hj => by
    rw [getLsbD_encI, if_neg (by omega), if_pos (by omega)]
    congr 1; omega

@[simp] theorem immField_encI : immField (encI opcode rs rt imm) = imm :=
  extract_eq fun j hj => by
    rw [getLsbD_encI, if_pos (by omega)]
    congr 1; omega

end I

section J
variable (opcode : BitVec 6) (target : BitVec 26)

@[simp] theorem opcodeField_encJ : opcodeField (encJ opcode target) = opcode :=
  extract_eq fun j hj => by
    rw [getLsbD_encJ, if_neg (by omega)]
    congr 1; omega

@[simp] theorem targetField_encJ : targetField (encJ opcode target) = target :=
  extract_eq fun j hj => by
    rw [getLsbD_encJ, if_pos (by omega)]
    congr 1; omega

end J

/-! ### A word is its fields side by side (30 R83 to R85) -/

/-- bits 25:0 are rs, rt and imm16. -/
theorem target_fields (w : Word) : rsField w ++ rtField w ++ immField w = targetField w := by
  ext i hi
  simp only [rsField, rtField, immField, targetField, BitVec.getElem_append, BitVec.getElem_extractLsb']
  split
  · rfl
  · split
    · congr 1; omega
    · congr 1; omega

/-- bits 15:0 are rd, shamt and funct. -/
theorem imm_fields (w : Word) : rdField w ++ shamtField w ++ functField w = immField w := by
  ext i hi
  simp only [rdField, shamtField, functField, immField, BitVec.getElem_append, BitVec.getElem_extractLsb']
  split
  · rfl
  · split
    · congr 1; omega
    · congr 1; omega

theorem encJ_fields (w : Word) : encJ (opcodeField w) (targetField w) = w := by
  apply BitVec.eq_of_getLsbD_eq
  intro i hi
  rw [getLsbD_encJ]
  split
  case isTrue h =>
    rw [targetField, BitVec.getLsbD_extractLsb']
    simp [h]
  case isFalse h =>
    rw [opcodeField, BitVec.getLsbD_extractLsb', show 26 + (i - 26) = i by omega]
    simp; omega

theorem encI_fields (w : Word) : encI (opcodeField w) (rsField w) (rtField w) (immField w) = w := by
  apply BitVec.eq_of_getLsbD_eq
  intro i hi
  rw [getLsbD_encI]
  simp only [opcodeField, rsField, rtField, immField, BitVec.getLsbD_extractLsb']
  split
  case isTrue h => simp [h]
  case isFalse h =>
    split
    case isTrue h' => rw [show 16 + (i - 16) = i by omega]; simp [h']
    case isFalse h' =>
      split
      case isTrue h'' => rw [show 21 + (i - 16 - 5) = i by omega]; simp [h'']
      case isFalse h'' => rw [show 26 + (i - 16 - 5 - 5) = i by omega]; simp; omega

theorem encR_fields (w : Word) (h0 : opcodeField w = 0x00#6) :
    encR (rsField w) (rtField w) (rdField w) (shamtField w) (functField w) = w := by
  apply BitVec.eq_of_getLsbD_eq
  intro i hi
  rw [getLsbD_encR, ← h0]
  simp only [opcodeField, rsField, rtField, rdField, shamtField, functField, BitVec.getLsbD_extractLsb']
  split
  case isTrue h => simp [h]
  case isFalse h =>
    split
    case isTrue h' => rw [show 6 + (i - 6) = i by omega]; simp [h']
    case isFalse h' =>
      split
      case isTrue h' => rw [show 11 + (i - 6 - 5) = i by omega]; simp [h']
      case isFalse h' =>
        split
        case isTrue h' => rw [show 16 + (i - 6 - 5 - 5) = i by omega]; simp [h']
        case isFalse h' =>
          split
          case isTrue h' => rw [show 21 + (i - 6 - 5 - 5 - 5) = i by omega]; simp [h']
          case isFalse h' => rw [show 26 + (i - 6 - 5 - 5 - 5 - 5) = i by omega]; simp; omega

/-! ### Which operation a word selects -/

theorem funct_cases (f : BitVec 6) :
    (f = 0x00#6 ∧ opOfFunct f = .SLL) ∨
    (f = 0x03#6 ∧ opOfFunct f = .SRA) ∨
    (f = 0x08#6 ∧ opOfFunct f = .JR) ∨
    (f = 0x0C#6 ∧ opOfFunct f = .SYSCALL) ∨
    (f = 0x20#6 ∧ opOfFunct f = .ADD) ∨
    (f = 0x21#6 ∧ opOfFunct f = .ADDU) ∨
    (f = 0x22#6 ∧ opOfFunct f = .SUB) ∨
    (f = 0x24#6 ∧ opOfFunct f = .AND) ∨
    (f = 0x25#6 ∧ opOfFunct f = .OR) ∨
    (f = 0x27#6 ∧ opOfFunct f = .NOR) ∨
    (f = 0x2A#6 ∧ opOfFunct f = .SLT) ∨
    (f = 0x2B#6 ∧ opOfFunct f = .SLTU) ∨
    (opOfFunct f = .UNRECOGNIZED ∧ f ∉ [0x00#6, 0x03#6, 0x08#6, 0x0C#6, 0x20#6, 0x21#6, 0x22#6, 0x24#6, 0x25#6, 0x27#6, 0x2A#6, 0x2B#6]) := by
  revert f; decide

theorem opcode_cases (o : BitVec 6) :
    o = 0x00#6 ∨ o = 0x02#6 ∨ o = 0x03#6 ∨
    (fmtOf o = .I ∧
      ((o = 0x04#6 ∧ opOfImmOpcode o = .BEQ) ∨
      (o = 0x05#6 ∧ opOfImmOpcode o = .BNE) ∨
      (o = 0x08#6 ∧ opOfImmOpcode o = .ADDI) ∨
      (o = 0x0A#6 ∧ opOfImmOpcode o = .SLTI) ∨
      (o = 0x0C#6 ∧ opOfImmOpcode o = .ANDI) ∨
      (o = 0x0D#6 ∧ opOfImmOpcode o = .ORI) ∨
      (o = 0x0F#6 ∧ opOfImmOpcode o = .LUI) ∨
      (o = 0x23#6 ∧ opOfImmOpcode o = .LW) ∨
      (o = 0x25#6 ∧ opOfImmOpcode o = .LHU) ∨
      (o = 0x2B#6 ∧ opOfImmOpcode o = .SW) ∨
      (opOfImmOpcode o = .UNRECOGNIZED ∧ o ∉ [0x00#6, 0x02#6, 0x03#6, 0x04#6, 0x05#6, 0x08#6, 0x0A#6, 0x0C#6, 0x0D#6, 0x0F#6, 0x23#6, 0x25#6, 0x2B#6]))) := by
  revert o; decide

/-- The operation of a word by its format, opcode and funct: every case of 30 R87, R88, R89. -/
theorem opOf_cases (w : Word) :
    (fmtOf (opcodeField w) = .R ∧ opcodeField w = 0x00#6 ∧
       ((functField w = 0x00#6 ∧ opOf w = .SLL) ∨
        (functField w = 0x03#6 ∧ opOf w = .SRA) ∨
        (functField w = 0x08#6 ∧ opOf w = .JR) ∨
        (functField w = 0x0C#6 ∧ opOf w = .SYSCALL) ∨
        (functField w = 0x20#6 ∧ opOf w = .ADD) ∨
        (functField w = 0x21#6 ∧ opOf w = .ADDU) ∨
        (functField w = 0x22#6 ∧ opOf w = .SUB) ∨
        (functField w = 0x24#6 ∧ opOf w = .AND) ∨
        (functField w = 0x25#6 ∧ opOf w = .OR) ∨
        (functField w = 0x27#6 ∧ opOf w = .NOR) ∨
        (functField w = 0x2A#6 ∧ opOf w = .SLT) ∨
        (functField w = 0x2B#6 ∧ opOf w = .SLTU) ∨
        (opOf w = .UNRECOGNIZED ∧ functField w ∉ [0x00#6, 0x03#6, 0x08#6, 0x0C#6, 0x20#6, 0x21#6, 0x22#6, 0x24#6, 0x25#6, 0x27#6, 0x2A#6, 0x2B#6]))) ∨
    (fmtOf (opcodeField w) = .J ∧ opcodeField w = 0x02#6 ∧ opOf w = .J) ∨
    (fmtOf (opcodeField w) = .J ∧ opcodeField w = 0x03#6 ∧ opOf w = .JAL) ∨
    (fmtOf (opcodeField w) = .I ∧
       ((opcodeField w = 0x04#6 ∧ opOf w = .BEQ) ∨
        (opcodeField w = 0x05#6 ∧ opOf w = .BNE) ∨
        (opcodeField w = 0x08#6 ∧ opOf w = .ADDI) ∨
        (opcodeField w = 0x0A#6 ∧ opOf w = .SLTI) ∨
        (opcodeField w = 0x0C#6 ∧ opOf w = .ANDI) ∨
        (opcodeField w = 0x0D#6 ∧ opOf w = .ORI) ∨
        (opcodeField w = 0x0F#6 ∧ opOf w = .LUI) ∨
        (opcodeField w = 0x23#6 ∧ opOf w = .LW) ∨
        (opcodeField w = 0x25#6 ∧ opOf w = .LHU) ∨
        (opcodeField w = 0x2B#6 ∧ opOf w = .SW) ∨
        (opOf w = .UNRECOGNIZED ∧ opcodeField w ∉ [0x00#6, 0x02#6, 0x03#6, 0x04#6, 0x05#6, 0x08#6, 0x0A#6, 0x0C#6, 0x0D#6, 0x0F#6, 0x23#6, 0x25#6, 0x2B#6]))) := by
  rcases opcode_cases (opcodeField w) with h | h | h | ⟨hI, h⟩
  · have hR : fmtOf (opcodeField w) = .R := by rw [h]; rfl
    have ho : opOf w = opOfFunct (functField w) := by simp only [opOf, hR]
    exact .inl ⟨hR, h, by rw [ho]; exact funct_cases _⟩
  · have hJ : fmtOf (opcodeField w) = .J := by rw [h]; rfl
    exact .inr (.inl ⟨hJ, h, by simp only [opOf, hJ]; rw [h]; rfl⟩)
  · have hJ : fmtOf (opcodeField w) = .J := by rw [h]; rfl
    exact .inr (.inr (.inl ⟨hJ, h, by simp only [opOf, hJ]; rw [h]; rfl⟩))
  · have ho : opOf w = opOfImmOpcode (opcodeField w) := by simp only [opOf, hI]
    exact .inr (.inr (.inr ⟨hI, by rw [ho]; exact h⟩))

/-! ### What a table row says of the fields -/

/-- Reading a field under a mask that covers it. -/
theorem extract_of_mask {w mask pattern : Word} {k n : Nat} (h : w &&& mask = pattern)
    (hm : mask.extractLsb' k n = BitVec.allOnes n) : w.extractLsb' k n = pattern.extractLsb' k n := by
  subst h
  ext j hj
  have hb := congrArg (fun v => v.getLsbD j) hm
  simp only [BitVec.getLsbD_extractLsb', BitVec.getLsbD_allOnes, hj, decide_true, Bool.true_and] at hb
  simp [hb]

theorem opcode_of_mask {w pattern : Word} (h : w &&& 0xFC000000#32 = pattern) :
    opcodeField w = opcodeField pattern := extract_of_mask h (by decide)

theorem opcode_of_maskR {w pattern : Word} (h : w &&& 0xFC00003F#32 = pattern) :
    opcodeField w = opcodeField pattern := extract_of_mask h (by decide)

theorem funct_of_maskR {w pattern : Word} (h : w &&& 0xFC00003F#32 = pattern) :
    functField w = functField pattern := extract_of_mask h (by decide)

/-- A word outside the R mask's bits does not matter: the R fields fix the masked word. -/
theorem maskR_of_fields {w : Word} {f : BitVec 6} (ho : opcodeField w = 0x00#6) (hf : functField w = f) :
    w &&& 0xFC00003F#32 = encR 0#5 0#5 0#5 0#5 f := by
  subst hf
  apply BitVec.eq_of_getLsbD_eq
  intro i hi
  have hmask : (0xFC00003F#32).getLsbD i = (decide (i < 6) || decide (26 ≤ i)) := by
    revert i; decide
  rw [BitVec.getLsbD_and, hmask, getLsbD_encR, ← ho]
  simp only [opcodeField, functField, BitVec.getLsbD_extractLsb', BitVec.getLsbD_zero]
  by_cases h6 : i < 6
  · simp [h6]
  · by_cases h26 : 26 ≤ i
    · rw [if_neg h6, if_neg (by omega), if_neg (by omega), if_neg (by omega), if_neg (by omega),
        show 26 + (i - 6 - 5 - 5 - 5 - 5) = i by omega]
      simp [h26]; omega
    · simp [h6, h26]
      omega

/-- The opcode fixes the word under the I and J mask. -/
theorem mask_of_opcode {w : Word} {o : BitVec 6} (ho : opcodeField w = o) :
    w &&& 0xFC000000#32 = encJ o 0#26 := by
  subst ho
  apply BitVec.eq_of_getLsbD_eq
  intro i hi
  have hmask : (0xFC000000#32).getLsbD i = decide (26 ≤ i) := by
    revert i; decide
  rw [BitVec.getLsbD_and, hmask, getLsbD_encJ]
  simp only [opcodeField, BitVec.getLsbD_extractLsb', BitVec.getLsbD_zero]
  by_cases h26 : 26 ≤ i
  · rw [if_neg (by omega), show 26 + (i - 26) = i by omega]
    simp [h26]; omega
  · simp [h26]

/-- Slices of fifteen bits that are three fields. -/
theorem slices15 (a b c : BitVec 5) :
    (a ++ b ++ c).extractLsb' 10 5 = a ∧ (a ++ b ++ c).extractLsb' 5 5 = b ∧ (a ++ b ++ c).extractLsb' 0 5 = c := by
  refine ⟨?_, ?_, ?_⟩ <;>
    (ext i hi; rw [BitVec.getElem_extractLsb', BitVec.getLsbD_append, BitVec.getLsbD_append])
  · rw [if_neg (by omega), if_neg (by omega), ← BitVec.getLsbD_eq_getElem]; congr 1; omega
  · rw [if_neg (by omega), if_pos (by omega), ← BitVec.getLsbD_eq_getElem]; congr 1; omega
  · rw [if_pos (by omega), ← BitVec.getLsbD_eq_getElem]; congr 1; omega

/-- Slices of twenty bits that are four fields. -/
theorem slices20 (a b c d : BitVec 5) :
    (a ++ b ++ c ++ d).extractLsb' 15 5 = a ∧ (a ++ b ++ c ++ d).extractLsb' 10 5 = b ∧
      (a ++ b ++ c ++ d).extractLsb' 5 5 = c ∧ (a ++ b ++ c ++ d).extractLsb' 0 5 = d := by
  refine ⟨?_, ?_, ?_, ?_⟩ <;>
    (ext i hi; rw [BitVec.getElem_extractLsb', BitVec.getLsbD_append, BitVec.getLsbD_append, BitVec.getLsbD_append])
  · rw [if_neg (by omega), if_neg (by omega), if_neg (by omega), ← BitVec.getLsbD_eq_getElem]; congr 1; omega
  · rw [if_neg (by omega), if_neg (by omega), if_pos (by omega), ← BitVec.getLsbD_eq_getElem]; congr 1; omega
  · rw [if_neg (by omega), if_pos (by omega), ← BitVec.getLsbD_eq_getElem]; congr 1; omega
  · rw [if_pos (by omega), ← BitVec.getLsbD_eq_getElem]; congr 1; omega

/-! ### Registers and fields -/

@[simp] theorem regOf_fieldOf (r : Reg) : regOf (fieldOf r) = r := rfl
@[simp] theorem fieldOf_regOf (f : BitVec 5) : fieldOf (regOf f) = f := rfl

/-! ### Bytes of a word (20 R52) -/

theorem wordOfBytes_bytes (w : Word) :
    wordOfBytes (byteOfWord w 0) (byteOfWord w 1) (byteOfWord w 2) (byteOfWord w 3) = w := by
  apply BitVec.eq_of_getLsbD_eq
  intro i hi
  show (byteOfWord w 0 ++ byteOfWord w 1 ++ byteOfWord w 2 ++ byteOfWord w 3).getLsbD i = _
  rw [BitVec.getLsbD_append, BitVec.getLsbD_append, BitVec.getLsbD_append]
  simp only [byteOfWord, BitVec.getLsbD_extractLsb']
  split
  case isTrue h => simp [h]
  case isFalse h =>
    split
    case isTrue h' => rw [show 24 - 8 * 2 + (i - 8) = i by omega]; simp [h']
    case isFalse h' =>
      split
      case isTrue h' => rw [show 24 - 8 * 1 + (i - 8 - 8) = i by omega]; simp [h']
      case isFalse h' => rw [show 24 - 8 * 0 + (i - 8 - 8 - 8) = i by omega]; simp; omega

/-- Decoding the stored bytes of a word is decoding the word. -/
theorem decodeBytes_bytesOfWord (w : Word) (rest : List Byte) :
    decodeBytes (bytesOfWord w ++ rest) = some (decode w, rest) := by
  simp [bytesOfWord, decodeBytes, wordOfBytes_bytes]

end Sys2Proof
end

