-- ==== Sys2Proof/Laws/State.lean ====
section
/-!
SUPPORT. The small lemmas of the state: what each update leaves in each field, true by rfl; and what the register file reads
after a write (10 R21, R24).
-/
namespace Sys2Proof.Machine

/-! ### setPc -/
@[simp] theorem setPc_pc (s : State) (t : Word) : (s.setPc t).pc = t := rfl
@[simp] theorem setPc_cfg (s : State) (t : Word) : (s.setPc t).cfg = s.cfg := rfl
@[simp] theorem setPc_regs (s : State) (t : Word) : (s.setPc t).regs = s.regs := rfl
@[simp] theorem setPc_tp (s : State) (t : Word) : (s.setPc t).tp = s.tp := rfl
@[simp] theorem setPc_mem (s : State) (t : Word) : (s.setPc t).mem = s.mem := rfl
@[simp] theorem setPc_run (s : State) (t : Word) : (s.setPc t).run = s.run := rfl
@[simp] theorem setPc_events (s : State) (t : Word) : (s.setPc t).events = s.events := rfl
@[simp] theorem setPc_input (s : State) (t : Word) : (s.setPc t).input = s.input := rfl
@[simp] theorem setPc_x (s : State) (t : Word) (r : Reg) : (s.setPc t).x r = s.x r := rfl

/-! ### advance -/
@[simp] theorem advance_pc (s : State) : s.advance.pc = s.pc + 4#32 := rfl
@[simp] theorem advance_cfg (s : State) : s.advance.cfg = s.cfg := rfl
@[simp] theorem advance_regs (s : State) : s.advance.regs = s.regs := rfl
@[simp] theorem advance_tp (s : State) : s.advance.tp = s.tp := rfl
@[simp] theorem advance_mem (s : State) : s.advance.mem = s.mem := rfl
@[simp] theorem advance_run (s : State) : s.advance.run = s.run := rfl
@[simp] theorem advance_events (s : State) : s.advance.events = s.events := rfl
@[simp] theorem advance_input (s : State) : s.advance.input = s.input := rfl
@[simp] theorem advance_x (s : State) (r : Reg) : s.advance.x r = s.x r := rfl

/-- Inside a step, `pc_cur` is the address fetched from (70 R286). -/
@[simp] theorem advance_pcCur (s : State) : s.advance.pcCur = s.pc := by
  simp [State.pcCur, State.advance]

/-! ### emit -/
@[simp] theorem emit_events (s : State) (e : Event) : (s.emit e).events = s.events ++ [e] := rfl
@[simp] theorem emit_pc (s : State) (e : Event) : (s.emit e).pc = s.pc := rfl
@[simp] theorem emit_cfg (s : State) (e : Event) : (s.emit e).cfg = s.cfg := rfl
@[simp] theorem emit_regs (s : State) (e : Event) : (s.emit e).regs = s.regs := rfl
@[simp] theorem emit_tp (s : State) (e : Event) : (s.emit e).tp = s.tp := rfl
@[simp] theorem emit_mem (s : State) (e : Event) : (s.emit e).mem = s.mem := rfl
@[simp] theorem emit_run (s : State) (e : Event) : (s.emit e).run = s.run := rfl
@[simp] theorem emit_input (s : State) (e : Event) : (s.emit e).input = s.input := rfl
@[simp] theorem emit_x (s : State) (e : Event) (r : Reg) : (s.emit e).x r = s.x r := rfl

/-! ### stop -/
@[simp] theorem stop_run (s : State) (r : RunState) : (s.stop r).run = r := rfl
@[simp] theorem stop_events (s : State) (r : RunState) : (s.stop r).events = s.events ++ [.stop r] := rfl
@[simp] theorem stop_pc (s : State) (r : RunState) : (s.stop r).pc = s.pc := rfl
@[simp] theorem stop_cfg (s : State) (r : RunState) : (s.stop r).cfg = s.cfg := rfl
@[simp] theorem stop_regs (s : State) (r : RunState) : (s.stop r).regs = s.regs := rfl
@[simp] theorem stop_tp (s : State) (r : RunState) : (s.stop r).tp = s.tp := rfl
@[simp] theorem stop_mem (s : State) (r : RunState) : (s.stop r).mem = s.mem := rfl
@[simp] theorem stop_input (s : State) (r : RunState) : (s.stop r).input = s.input := rfl
@[simp] theorem stop_x (s : State) (r : RunState) (i : Reg) : (s.stop r).x i = s.x i := rfl

/-! ### raise -/
@[simp] theorem raise_run (s : State) (rec : FaultRecord) : (s.raise rec).run = .faulted rec := rfl
@[simp] theorem raise_events (s : State) (rec : FaultRecord) :
    (s.raise rec).events = s.events ++ [.stop (.faulted rec)] := rfl
@[simp] theorem raise_pc (s : State) (rec : FaultRecord) : (s.raise rec).pc = rec.faultPc := rfl
@[simp] theorem raise_cfg (s : State) (rec : FaultRecord) : (s.raise rec).cfg = s.cfg := rfl
@[simp] theorem raise_regs (s : State) (rec : FaultRecord) : (s.raise rec).regs = s.regs := rfl
@[simp] theorem raise_tp (s : State) (rec : FaultRecord) : (s.raise rec).tp = s.tp := rfl
@[simp] theorem raise_mem (s : State) (rec : FaultRecord) : (s.raise rec).mem = s.mem := rfl
@[simp] theorem raise_input (s : State) (rec : FaultRecord) : (s.raise rec).input = s.input := rfl
@[simp] theorem raise_x (s : State) (rec : FaultRecord) (r : Reg) : (s.raise rec).x r = s.x r := rfl

/-! ### setX -/
@[simp] theorem setX_pc (s : State) (i : Reg) (v : Word) : (s.setX i v).pc = s.pc := by
  unfold State.setX; split <;> rfl
@[simp] theorem setX_cfg (s : State) (i : Reg) (v : Word) : (s.setX i v).cfg = s.cfg := by
  unfold State.setX; split <;> rfl
@[simp] theorem setX_tp (s : State) (i : Reg) (v : Word) : (s.setX i v).tp = s.tp := by
  unfold State.setX; split <;> rfl
@[simp] theorem setX_mem (s : State) (i : Reg) (v : Word) : (s.setX i v).mem = s.mem := by
  unfold State.setX; split <;> rfl
@[simp] theorem setX_run (s : State) (i : Reg) (v : Word) : (s.setX i v).run = s.run := by
  unfold State.setX; split <;> rfl
@[simp] theorem setX_events (s : State) (i : Reg) (v : Word) : (s.setX i v).events = s.events := by
  unfold State.setX; split <;> rfl
@[simp] theorem setX_input (s : State) (i : Reg) (v : Word) : (s.setX i v).input = s.input := by
  unfold State.setX; split <;> rfl

/-- Every other register reads as before (10 R24). -/
theorem setX_x_other (s : State) {i r : Reg} (v : Word) (h : r ≠ i) : (s.setX i v).x r = s.x r := by
  have h' : (i : Nat) ≠ (r : Nat) := fun e => h (Fin.ext e.symm)
  unfold State.setX
  split
  · rfl
  · simp [State.x, Vector.getElem_set_ne, h']

/-- The written register reads the value, or 0 where it is a hardwired register 0 (10 R21). -/
theorem setX_x_self (s : State) (i : Reg) (v : Word) :
    (s.setX i v).x i = if s.cfg.r0Hardwired = true ∧ i = 0 then 0x00000000#32 else v := by
  unfold State.setX
  split
  case isTrue h => simp [State.x, h]
  case isFalse h => simp [State.x, h]

/-- What any register reads after a write. -/
theorem setX_x (s : State) (i r : Reg) (v : Word) :
    (s.setX i v).x r =
      if r = i then (if s.cfg.r0Hardwired = true ∧ i = 0 then 0x00000000#32 else v) else s.x r := by
  split
  case isTrue h => subst h; exact setX_x_self s r v
  case isFalse h => exact setX_x_other s v h

/-- A write never puts a value into a hardwired register 0 (10 R21). -/
theorem setX_keeps_zero {s : State} (h : s.cfg.r0Hardwired = true → s.regs[(0 : Reg)] = 0x00000000#32) (i : Reg) (v : Word) :
    s.cfg.r0Hardwired = true → (s.setX i v).regs[(0 : Reg)] = 0x00000000#32 := by
  intro hh
  unfold State.setX
  split
  case isTrue => exact h hh
  case isFalse hn =>
    have hi : (i : Nat) ≠ ((0 : Reg) : Nat) := fun e => hn ⟨hh, Fin.ext e⟩
    show (s.regs.set i v)[((0 : Reg) : Nat)] = _
    rw [Vector.getElem_set_ne (h := hi)]
    exact h hh

/-- The reset registers (10 R34). -/
theorem resetWith_x (c : Config) (r : Reg) :
    (State.resetWith c).x r = if r = 29 then c.spInit else 0x00000000#32 := by
  unfold State.x
  split
  · next h => rw [if_neg (by rw [h.2]; decide)]
  · show ((Vector.replicate 32 0x00000000#32).set 29 c.spInit)[(r : Nat)] = _
    by_cases hr : r = 29
    · subst hr; simp
    · have h29 : 29 ≠ (r : Nat) := fun e => hr (Fin.ext e.symm)
      rw [if_neg hr, Vector.getElem_set_ne (h := h29)]
      simp

/-! ### answer -/
@[simp] theorem answer_input (s : State) (a : HostAnswer) : (s.answer a).input = s.input ++ [a] := rfl
@[simp] theorem answer_cfg (s : State) (a : HostAnswer) : (s.answer a).cfg = s.cfg := rfl
@[simp] theorem answer_regs (s : State) (a : HostAnswer) : (s.answer a).regs = s.regs := rfl
@[simp] theorem answer_pc (s : State) (a : HostAnswer) : (s.answer a).pc = s.pc := rfl
@[simp] theorem answer_tp (s : State) (a : HostAnswer) : (s.answer a).tp = s.tp := rfl
@[simp] theorem answer_mem (s : State) (a : HostAnswer) : (s.answer a).mem = s.mem := rfl
@[simp] theorem answer_run (s : State) (a : HostAnswer) : (s.answer a).run = s.run := rfl
@[simp] theorem answer_events (s : State) (a : HostAnswer) : (s.answer a).events = s.events := rfl
@[simp] theorem answer_x (s : State) (a : HostAnswer) (r : Reg) : (s.answer a).x r = s.x r := rfl
@[simp] theorem answer_inBounds (s : State) (a : HostAnswer) (b : Word) (n : Nat) :
    (s.answer a).inBounds b n = s.inBounds b n := rfl

/-! ### ports -/
@[simp] theorem portA_eq (s : State) (i : Reg) : s.portA i = s.x i := rfl
@[simp] theorem portB_eq (s : State) (i : Reg) : s.portB i = s.x i := rfl
@[simp] theorem writePort_on (s : State) (i : Reg) (v : Word) : s.writePort true i v = s.setX i v := rfl
@[simp] theorem writePort_off (s : State) (i : Reg) (v : Word) : s.writePort false i v = s := rfl

/-! ### record updates of mem and input -/
@[simp] theorem withMem_x (s : State) (m : Memory) (r : Reg) : ({ s with mem := m } : State).x r = s.x r := rfl
@[simp] theorem withInput_x (s : State) (l : List HostAnswer) (r : Reg) : ({ s with input := l } : State).x r = s.x r := rfl

/-- A read of a register in a state with the same registers and configuration. -/
theorem x_congr {s t : State} (hc : t.cfg = s.cfg) (hr : t.regs = s.regs) (r : Reg) : t.x r = s.x r := by
  simp [State.x, hc, hr]

/-- Bounds depend on the configuration alone. -/
theorem inBounds_congr {s t : State} (hc : t.cfg = s.cfg) (a : Word) (n : Nat) : t.inBounds a n = s.inBounds a n := by
  simp [State.inBounds, hc]

@[simp] theorem advance_inBounds (s : State) (a : Word) (n : Nat) : s.advance.inBounds a n = s.inBounds a n := rfl

theorem inBounds_iff (s : State) (a : Word) (n : Nat) : s.inBounds a n = true ↔ uint a + n ≤ s.cfg.memSize := by
  simp [State.inBounds]

end Sys2Proof.Machine
end

