-- ==== Sys2Proof/Laws/Memory.lean ====
section
/-!
SUPPORT. The laws of memory: a read after a write, that a write leaves every other byte alone, the big-endian layout
(spec/20_memory.md R52, R53), and that every memory operation keeps the canonical form.
-/
namespace Sys2Proof.Machine

/-! ### One byte -/

theorem readByte_insertCell_self (m : Memory) (a : Nat) (b : Byte) (h : ∀ c ∈ m, c.1 ≠ a) :
    (m.insertCell a b).readByte a = b := by
  induction m with
  | nil => simp [Memory.insertCell, Memory.readByte]
  | cons c m ih =>
    obtain ⟨k, v⟩ := c
    have hk : k ≠ a := h (k, v) (by simp)
    simp only [Memory.insertCell]
    split
    · simp [Memory.readByte]
    · simp only [Memory.readByte, Ne.symm hk, if_false]
      exact ih fun c hc => h c (by simp [hc])

theorem readByte_insertCell_other (m : Memory) {a c : Nat} (b : Byte) (h : c ≠ a) :
    (m.insertCell a b).readByte c = m.readByte c := by
  induction m with
  | nil => simp [Memory.insertCell, Memory.readByte, h]
  | cons d m ih =>
    obtain ⟨k, v⟩ := d
    simp only [Memory.insertCell]
    split
    · simp [Memory.readByte, h]
    · simp [Memory.readByte, ih]

theorem readByte_erase_self (m : Memory) (a : Nat) : (m.erase a).readByte a = Memory.unlisted := by
  induction m with
  | nil => rfl
  | cons d m ih =>
    obtain ⟨k, v⟩ := d
    simp only [Memory.erase, List.filter_cons] at ih ⊢
    split
    case isTrue h =>
      have hk : k ≠ a := by simpa using h
      rw [Memory.readByte, if_neg (Ne.symm hk), ih]
    case isFalse => exact ih

theorem readByte_erase_other (m : Memory) {a c : Nat} (h : c ≠ a) : (m.erase a).readByte c = m.readByte c := by
  induction m with
  | nil => rfl
  | cons d m ih =>
    obtain ⟨k, v⟩ := d
    simp only [Memory.erase, List.filter_cons] at ih ⊢
    split
    case isTrue => rw [Memory.readByte, Memory.readByte, ih]
    case isFalse hk =>
      have hk : k = a := by simpa using hk
      rw [ih, Memory.readByte, if_neg (hk ▸ h)]

theorem erase_ne (m : Memory) (a : Nat) : ∀ c ∈ m.erase a, c.1 ≠ a := by
  intro c hc
  simpa using (List.mem_filter.mp hc).2

/-- A byte read after a byte write, at any address. -/
theorem readByte_writeByte (m : Memory) (a c : Nat) (b : Byte) :
    (m.writeByte a b).readByte c = if c = a then b else m.readByte c := by
  unfold Memory.writeByte
  by_cases hc : c = a
  · subst hc
    rw [if_pos rfl]
    split
    case isTrue hb => rw [readByte_erase_self, hb]
    case isFalse => exact readByte_insertCell_self _ _ _ (erase_ne m c)
  · rw [if_neg hc]
    split
    · exact readByte_erase_other m hc
    · rw [readByte_insertCell_other _ _ hc, readByte_erase_other m hc]

/-! ### The canonical form -/

theorem mem_insertCell {m : Memory} {a : Nat} {b : Byte} {c : Host.Cell} (h : c ∈ m.insertCell a b) :
    c = (a, b) ∨ c ∈ m := by
  induction m with
  | nil => simpa [Memory.insertCell] using h
  | cons d m ih =>
    obtain ⟨k, v⟩ := d
    simp only [Memory.insertCell] at h
    split at h
    · simpa using h
    · rcases List.mem_cons.mp h with h | h
      · simp [h]
      · rcases ih h with h | h <;> simp [h]

theorem wf_erase {m : Memory} (h : m.wf) (a : Nat) : (m.erase a).wf :=
  ⟨h.1.filter _, fun c hc => h.2 c (List.mem_filter.mp hc).1⟩

theorem wf_insertCell {m : Memory} (h : m.wf) {a : Nat} {b : Byte} (hb : b ≠ Memory.unlisted)
    (ha : ∀ c ∈ m, c.1 ≠ a) : (m.insertCell a b).wf := by
  induction m with
  | nil => simp [Memory.insertCell, Memory.wf, hb]
  | cons d m ih =>
    obtain ⟨k, v⟩ := d
    obtain ⟨hp, hn⟩ := h
    obtain ⟨hk, hp'⟩ := List.pairwise_cons.mp hp
    have hka : k ≠ a := ha (k, v) (by simp)
    simp only [Memory.insertCell]
    split
    case isTrue hlt =>
      refine ⟨List.pairwise_cons.mpr ⟨fun c hc => ?_, hp⟩, fun c hc => ?_⟩
      · rcases List.mem_cons.mp hc with hc | hc
        · simpa [hc] using hlt
        · exact Nat.lt_trans hlt (hk c hc)
      · rcases List.mem_cons.mp hc with hc | hc
        · simpa [hc] using hb
        · exact hn c hc
    case isFalse hge =>
      have hlt : k < a := by omega
      obtain ⟨ihp, ihn⟩ := ih ⟨hp', fun c hc => hn c (by simp [hc])⟩ fun c hc => ha c (by simp [hc])
      refine ⟨List.pairwise_cons.mpr ⟨fun c hc => ?_, ihp⟩, fun c hc => ?_⟩
      · rcases mem_insertCell hc with hc | hc
        · simpa [hc] using hlt
        · exact hk c hc
      · rcases List.mem_cons.mp hc with hc | hc
        · simpa [hc] using hn (k, v) (by simp)
        · exact ihn c hc

/-- A byte write keeps the canonical form. -/
theorem wf_writeByte {m : Memory} (h : m.wf) (a : Nat) (b : Byte) : (m.writeByte a b).wf := by
  unfold Memory.writeByte
  split
  case isTrue => exact wf_erase h a
  case isFalse hb => exact wf_insertCell (wf_erase h a) hb (erase_ne m a)

/-- A byte write below a bound keeps every listed address below it. -/
theorem below_writeByte {m : Memory} {bound a : Nat} (h : m.below bound) (ha : a < bound) (b : Byte) :
    (m.writeByte a b).below bound := by
  have he : (m.erase a).below bound := fun c hc => h c (List.mem_filter.mp hc).1
  unfold Memory.writeByte
  split
  · exact he
  · intro c hc
    rcases mem_insertCell hc with hc | hc
    · simpa [hc] using ha
    · exact he c hc

/-- A write of any width keeps the canonical form. -/
theorem wf_write {m : Memory} (h : m.wf) (a : Nat) : ∀ (n : Nat) (v : BitVec (8 * n)), (m.write a n v).wf
  | 0, _ => h
  | n + 1, _ => wf_writeByte (wf_write h a n _) _ _

/-- A write that ends at or below a bound keeps every listed address below it. -/
theorem below_write {m : Memory} {bound a : Nat} (h : m.below bound) :
    ∀ (n : Nat) (v : BitVec (8 * n)), a + n ≤ bound → (m.write a n v).below bound
  | 0, _, _ => h
  | n + 1, _, hb => below_writeByte (below_write h n _ (by omega)) (by omega) _

/-! ### Wider accesses -/

/-- A byte outside the written ones reads as before. -/
theorem readByte_write_outside (m : Memory) {a c : Nat} :
    ∀ (n : Nat) (v : BitVec (8 * n)), (c < a ∨ a + n ≤ c) → (m.write a n v).readByte c = m.readByte c
  | 0, _, _ => rfl
  | n + 1, v, h => by
    rw [Memory.write, readByte_writeByte, if_neg (by omega)]
    exact readByte_write_outside m n _ (by omega)

/-- A written byte reads as its slice of the value, the most significant at the lowest address (20 R52). -/
theorem readByte_write_inside (m : Memory) (a k : Nat) :
    ∀ (n : Nat) (v : BitVec (8 * n)), k < n →
      (m.write a n v).readByte (a + k) = v.extractLsb' (8 * (n - 1 - k)) 8
  | 0, _, h => absurd h (Nat.not_lt_zero _)
  | n + 1, v, h => by
    rw [Memory.write, readByte_writeByte]
    split
    case isTrue he =>
      have : k = n := by omega
      subst this
      simp
    case isFalse hne =>
      have hk : k < n := by omega
      rw [readByte_write_inside m a k n _ hk]
      ext i hi
      simp only [BitVec.getElem_extractLsb', BitVec.getLsbD_extractLsb']
      have h1 : 8 * (n - 1 - k) + i < 8 * n := by omega
      have h2 : 8 + (8 * (n - 1 - k) + i) = 8 * (n + 1 - 1 - k) + i := by omega
      simp [h1, h2]

/-- A read depends only on the bytes it covers. -/
theorem read_congr {m m' : Memory} {a : Nat} :
    ∀ n, (∀ k < n, m'.readByte (a + k) = m.readByte (a + k)) → m'.read a n = m.read a n
  | 0, _ => rfl
  | n + 1, h => by
    rw [Memory.read, Memory.read, read_congr n fun k hk => h k (by omega), h n (by omega)]

/-- A read after a write of the same width at the same address gives the value written (20 R60). -/
theorem read_write_same (m : Memory) (a : Nat) : ∀ (n : Nat) (v : BitVec (8 * n)), (m.write a n v).read a n = v
  | 0, v => by simp [Memory.read, BitVec.eq_nil v]
  | n + 1, v => by
    have hpre : (m.write a (n + 1) v).read a n = v.extractLsb' 8 (8 * n) := by
      rw [← read_write_same m a n (v.extractLsb' 8 (8 * n))]
      refine read_congr n fun k hk => ?_
      rw [Memory.write, readByte_writeByte, if_neg (by omega)]
    have hlast : (m.write a (n + 1) v).readByte (a + n) = v.extractLsb' 0 8 := by
      rw [Memory.write, readByte_writeByte, if_pos rfl]
    rw [Memory.read, hpre, hlast]
    ext i hi
    simp only [BitVec.getElem_append, BitVec.getElem_extractLsb']
    split
    case isTrue h => rw [Nat.zero_add, BitVec.getLsbD_eq_getElem]
    case isFalse h =>
      have : 8 + (i - 8) = i := by omega
      rw [this, BitVec.getLsbD_eq_getElem]

theorem toNat_read_succ (m : Memory) (a n : Nat) :
    (m.read a (n + 1)).toNat = (m.read a n).toNat <<< 8 ||| (m.readByte (a + n)).toNat := by
  rw [Memory.read, BitVec.toNat_append]

theorem toNat_read_zero (m : Memory) (a : Nat) : (m.read a 0).toNat = 0 := rfl

/-- The word at an address, byte by byte (20 R52). -/
theorem readWord_eq (m : Memory) (a : Word) :
    m.readWord a = m.readByte (uint a) ++ m.readByte (uint a + 1) ++ m.readByte (uint a + 2) ++ m.readByte (uint a + 3) := by
  apply BitVec.eq_of_toNat_eq
  have bytes : ∀ b0 b1 b2 b3 : Byte, (b0 ++ b1 ++ b2 ++ b3).toNat =
      ((b0.toNat <<< 8 ||| b1.toNat) <<< 8 ||| b2.toNat) <<< 8 ||| b3.toNat := by
    intro b0 b1 b2 b3
    rw [BitVec.toNat_append, BitVec.toNat_append, BitVec.toNat_append]
  show (m.read (uint a) 4).toNat = _
  refine Eq.trans ?_ (bytes _ _ _ _).symm
  simp [toNat_read_succ, toNat_read_zero]

/-- The halfword at an address, byte by byte (20 R52). -/
theorem readHalf_eq (m : Memory) (a : Word) : m.readHalf a = m.readByte (uint a) ++ m.readByte (uint a + 1) := by
  apply BitVec.eq_of_toNat_eq
  show (m.read (uint a) 2).toNat = _
  refine Eq.trans ?_ (BitVec.toNat_append (m.readByte (uint a)) (m.readByte (uint a + 1))).symm
  simp [toNat_read_succ, toNat_read_zero]

theorem readWord_writeWord_same (m : Memory) (a v : Word) : (m.writeWord a v).readWord a = v :=
  read_write_same m (uint a) 4 v

theorem readByte_writeWord_outside (m : Memory) (a v : Word) {c : Nat} (h : c < uint a ∨ uint a + 4 ≤ c) :
    (m.writeWord a v).readByte c = m.readByte c :=
  readByte_write_outside m 4 v h

theorem readByte_writeWord_inside (m : Memory) (a v : Word) {k : Nat} (h : k < 4) :
    (m.writeWord a v).readByte (uint a + k) = v.extractLsb' (8 * (3 - k)) 8 :=
  readByte_write_inside m (uint a) k 4 v h

/-- The memory of the reset state is canonical. -/
theorem reset_mem_wf : State.reset.mem.wf := by decide

/-! ### The loader -/

theorem wf_loadWords {m : Memory} (h : m.wf) (a : Nat) (ws : List Word) : (m.loadWords a ws).wf := by
  induction ws generalizing m a with
  | nil => exact h
  | cons w ws ih => exact ih (wf_write h a 4 w) _

theorem below_loadWords {m : Memory} {bound a : Nat} (h : m.below bound) (ws : List Word)
    (hb : a + 4 * ws.length ≤ bound) : (m.loadWords a ws).below bound := by
  induction ws generalizing m a with
  | nil => exact h
  | cons w ws ih =>
    rw [List.length_cons] at hb
    exact ih (below_write h 4 w (by omega)) (by omega)

theorem readByte_loadWords_outside (m : Memory) {a c : Nat} (ws : List Word) (h : c < a ∨ a + 4 * ws.length ≤ c) :
    (m.loadWords a ws).readByte c = m.readByte c := by
  induction ws generalizing m a with
  | nil => rfl
  | cons w ws ih =>
    rw [List.length_cons] at h
    rw [Memory.loadWords, ih _ (by omega)]
    exact readByte_write_outside m 4 w (by omega)

/-- Byte `k` of loaded word `i` (70 R281). -/
theorem readByte_loadWords_inside (m : Memory) (a : Nat) (ws : List Word) (i k : Nat) (hi : i < ws.length) (hk : k < 4) :
    (m.loadWords a ws).readByte (a + 4 * i + k) = ws[i].extractLsb' (8 * (3 - k)) 8 := by
  induction ws generalizing m a i with
  | nil => exact absurd hi (by simp)
  | cons w ws ih =>
    rw [Memory.loadWords]
    cases i with
    | zero =>
      rw [readByte_loadWords_outside _ _ (by omega)]
      exact readByte_write_inside m a k 4 w hk
    | succ i =>
      have := ih (m.write a 4 w) (a + 4) i (by simpa using hi)
      rw [show a + 4 * (i + 1) + k = a + 4 + 4 * i + k by omega, this]
      rfl

end Sys2Proof.Machine
end

