-- ==== Sys2Proof/Laws/Exec.lean ====
section
/-!
SUPPORT. One lemma per shared operation that says what it answers, and one inversion lemma for `exec` and one for `step` that
say everything they can do.
-/
namespace Sys2Proof.Machine

/-! ### The shared operations -/

theorem writeBack_eq (rd : Reg) (v : Word) (s : State) : writeBack rd v s = .next (s.setX rd v) := rfl

theorem regReg_eq (f : Word → Word → Word) (rd rs rt : Reg) (s : State) :
    regReg f rd rs rt s = .next (s.setX rd (f (s.x rs) (s.x rt))) := rfl

theorem regImm_eq (f : Word → Word → Word) (rt rs : Reg) (imm : BitVec 16) (s : State) :
    regImm f rt rs imm s = .next (s.setX rt (f (s.x rs) (imm.signExtend 32))) := rfl

theorem shiftReg_eq (f : Word → Nat → Word) (rd rt : Reg) (shamt : Nat) (s : State) :
    shiftReg f rd rt shamt s = .next (s.setX rd (f (s.x rt) shamt)) := rfl

theorem jumpIf_true (target : Word) (s : State) : jumpIf true target s = .next (s.setPc target) := rfl

theorem jumpIf_false (target : Word) (s : State) : jumpIf false target s = .next s := rfl

/-- A write of one register, in the terms of Safety. -/
theorem registerWritten_setX (s : State) (rd : Reg) (v : Word) : RegisterWritten s (s.setX rd v) rd v :=
  ⟨⟨setX_x_self s rd v, fun _ h => setX_x_other s v h⟩, setX_pc s rd v, fun a => by rw [setX_mem], setX_cfg s rd v,
    setX_tp s rd v, setX_run s rd v, setX_events s rd v, setX_input s rd v⟩

theorem pcOnly_setPc (s : State) (t : Word) : PcOnly s (s.setPc t) t :=
  ⟨rfl, fun _ => rfl, fun _ => rfl, rfl, rfl, rfl, rfl, rfl⟩

theorem pcOnly_same (s : State) : PcOnly s s s.pc :=
  ⟨rfl, fun _ => rfl, fun _ => rfl, rfl, rfl, rfl, rfl, rfl⟩

theorem eventOnly_emit (s : State) (e : Event) : EventOnly s (s.emit e) e :=
  ⟨rfl, rfl, fun _ => rfl, fun _ => rfl, rfl, rfl, rfl, rfl⟩

theorem faultTaken_raise (s : State) (rec : FaultRecord) : FaultTaken s (s.raise rec) rec :=
  ⟨rfl, rfl, rfl, fun _ => rfl, fun _ => rfl, rfl, rfl, rfl⟩

/-- The load_store_unit's fault (20 R65). -/
theorem loadStoreUnit_fault {op : LsuOp} {base offset sdata : Word} {s : State}
    (h : s.inBounds (base + offset) op.size = false) :
    loadStoreUnit op base offset sdata s = .fault op.kind (base + offset) op.size := by
  simp [loadStoreUnit, h]

theorem loadStoreUnit_LW {base offset sdata : Word} {s : State} (h : s.inBounds (base + offset) 4 = true) :
    loadStoreUnit .LW base offset sdata s = .ldata (s.mem.readWord (base + offset)) := by
  simp [loadStoreUnit, LsuOp.size, h]

theorem loadStoreUnit_LHU {base offset sdata : Word} {s : State} (h : s.inBounds (base + offset) 2 = true) :
    loadStoreUnit .LHU base offset sdata s = .ldata (zext32 (s.mem.readHalf (base + offset))) := by
  simp [loadStoreUnit, LsuOp.size, h]

theorem loadStoreUnit_SW {base offset sdata : Word} {s : State} (h : s.inBounds (base + offset) 4 = true) :
    loadStoreUnit .SW base offset sdata s = .stored (s.mem.writeWord (base + offset) sdata) := by
  simp [loadStoreUnit, LsuOp.size, h]

/-- A word load in bounds (41 R167). -/
theorem accessMemory_LW {word : Word} {rt rs : Reg} {imm : BitVec 16} {s : State}
    (h : uint (effectiveAddress s rs imm) + 4 ≤ s.cfg.memSize) :
    accessMemory .LW word rt imm rs s = .next (s.setX rt (s.mem.readWord (effectiveAddress s rs imm))) := by
  unfold accessMemory
  rw [loadStoreUnit_LW (by exact decide_eq_true h)]
  rfl

/-- A halfword load in bounds (41 R168). -/
theorem accessMemory_LHU {word : Word} {rt rs : Reg} {imm : BitVec 16} {s : State}
    (h : uint (effectiveAddress s rs imm) + 2 ≤ s.cfg.memSize) :
    accessMemory .LHU word rt imm rs s = .next (s.setX rt (zext32 (s.mem.readHalf (effectiveAddress s rs imm)))) := by
  unfold accessMemory
  rw [loadStoreUnit_LHU (by exact decide_eq_true h)]
  rfl

/-- A word store in bounds (41 R169). -/
theorem accessMemory_SW {word : Word} {rt rs : Reg} {imm : BitVec 16} {s : State}
    (h : uint (effectiveAddress s rs imm) + 4 ≤ s.cfg.memSize) :
    accessMemory .SW word rt imm rs s =
      .next { s with mem := s.mem.writeWord (effectiveAddress s rs imm) (s.x rt) } := by
  unfold accessMemory
  rw [loadStoreUnit_SW (by exact decide_eq_true h)]
  rfl

/-- An access out of bounds (20 R65). -/
theorem accessMemory_fault {op : LsuOp} {word : Word} {rt rs : Reg} {imm : BitVec 16} {s : State}
    (h : ¬ (uint (effectiveAddress s rs imm) + op.size ≤ s.cfg.memSize)) :
    accessMemory op word rt imm rs s =
      .next (s.raise (memoryFault op.kind s.pcCur (some word) (effectiveAddress s rs imm) op.size)) := by
  unfold accessMemory
  rw [loadStoreUnit_fault (by exact decide_eq_false h)]
  rfl

/-- Everything an access can do (20 R65). -/
theorem accessMemory_cases (op : LsuOp) (word : Word) (rt : Reg) (imm : BitVec 16) (rs : Reg) (s : State) :
    (s.inBounds (effectiveAddress s rs imm) op.size = false ∧
      accessMemory op word rt imm rs s =
        .next (s.raise (memoryFault op.kind s.pcCur (some word) (effectiveAddress s rs imm) op.size))) ∨
    (s.inBounds (effectiveAddress s rs imm) op.size = true ∧
      ((op = .SW ∧ accessMemory op word rt imm rs s =
          .next { s with mem := s.mem.writeWord (effectiveAddress s rs imm) (s.x rt) }) ∨
        (op ≠ .SW ∧ ∃ v, accessMemory op word rt imm rs s = .next (s.setX rt v)))) := by
  cases h : s.inBounds (effectiveAddress s rs imm) op.size with
  | false =>
    refine .inl ⟨rfl, ?_⟩
    unfold accessMemory
    rw [loadStoreUnit_fault (by exact h)]
    rfl
  | true =>
    refine .inr ⟨rfl, ?_⟩
    unfold accessMemory
    cases op with
    | LW => exact .inr ⟨by decide, _, by rw [loadStoreUnit_LW (by exact h)]; rfl⟩
    | LHU => exact .inr ⟨by decide, _, by rw [loadStoreUnit_LHU (by exact h)]; rfl⟩
    | SW => exact .inl ⟨rfl, by rw [loadStoreUnit_SW (by exact h)]; rfl⟩

theorem fetchUnit_word {s : State} (h : s.inBounds s.pc 4 = true) : fetchUnit s = .word (s.mem.readWord s.pc) := by
  simp [fetchUnit, h]

theorem fetchUnit_fault {s : State} (h : s.inBounds s.pc 4 = false) :
    fetchUnit s = .fault (memoryFault .fetch s.pc none s.pc 4) := by
  simp [fetchUnit, h]

theorem anomaly_strict {s : State} (h : s.cfg.strictDecode = true) (k : AnomalyKind) (w : Word) (v : Option Word) :
    s.anomaly k w v = s.raise (plainFault k.error s.pcCur w v) := by simp [State.anomaly, h]

theorem anomaly_lax {s : State} (h : s.cfg.strictDecode = false) (k : AnomalyKind) (w : Word) (v : Option Word) :
    s.anomaly k w v = s.emit (.anomaly k s.pcCur w v) := by simp [State.anomaly, h]

/-! ### The byte scan of service 4 -/

/-- Where the scan finds a NUL, the text is the bytes before it. -/
theorem scan_text (m : Memory) (n : Nat) : ∀ (a room : Nat), n < room → (∀ k < n, m.readByte (a + k) ≠ 0x00#8) →
    m.readByte (a + n) = 0x00#8 → m.scan a room = .text ((List.range n).map fun k => m.readByte (a + k)) := by
  induction n with
  | zero =>
    intro a room hr _ h0
    obtain ⟨r, rfl⟩ := Nat.exists_eq_succ_of_ne_zero (Nat.ne_of_gt hr)
    simp at h0
    simp [Memory.scan, h0]
  | succ n ih =>
    intro a room hr hne h0
    obtain ⟨r, rfl⟩ := Nat.exists_eq_succ_of_ne_zero (Nat.ne_of_gt (Nat.zero_lt_of_lt hr))
    have ha : m.readByte a ≠ 0x00#8 := hne 0 (by omega)
    have hshift : ∀ k, a + 1 + k = a + (k + 1) := fun k => by omega
    rw [Memory.scan, if_neg ha, ih (a + 1) r (by omega) (fun k hk => hshift k ▸ hne (k + 1) (by omega))
      (hshift n ▸ h0)]
    simp [ScanResult.push, List.range_succ_eq_map, hshift, Function.comp_def]

/-- Where it finds none in the room it has, it stops at the first address after it. -/
theorem scan_outOfBounds (m : Memory) : ∀ (room a : Nat), (∀ k < room, m.readByte (a + k) ≠ 0x00#8) →
    m.scan a room = .outOfBounds (a + room)
  | 0, _, _ => rfl
  | room + 1, a, h => by
    have ha : m.readByte a ≠ 0x00#8 := h 0 (by omega)
    rw [Memory.scan, if_neg ha, scan_outOfBounds m room (a + 1) fun k hk => by
      rw [show a + 1 + k = a + (k + 1) by omega]; exact h (k + 1) (by omega)]
    simp [ScanResult.push]
    omega

/-- The text of a scan holds no NUL. -/
theorem scan_noNul (m : Memory) : ∀ (room a : Nat) (bytes : List Byte), m.scan a room = .text bytes → 0x00#8 ∉ bytes
  | 0, _, _, h => by simp [Memory.scan] at h
  | room + 1, a, bytes, h => by
    rw [Memory.scan] at h
    split at h
    · simp only [ScanResult.text.injEq] at h
      simp [← h]
    · rename_i hne
      cases hs : m.scan (a + 1) room with
      | outOfBounds b => simp [hs, ScanResult.push] at h
      | text rest =>
        simp only [hs, ScanResult.push, ScanResult.text.injEq] at h
        have := scan_noNul m room (a + 1) rest hs
        simp [← h, this, Ne.symm hne]

/-! ### What each service answers (43 R211 to R215) -/

theorem service_printInt (word : Word) {s : State} (h : s.x syscallReg = svcPrintInt) :
    syscallService word s = .next (s.emit (.printInt (sint (s.x argReg)))) := by
  simp [syscallService, h, servicePrintInt]

theorem service_printString (word : Word) {s : State} (h : s.x syscallReg = svcPrintString) :
    syscallService word s = servicePrintString word s := by
  simp [syscallService, h, svcPrintInt, svcPrintString]

theorem service_readInt (word : Word) {s : State} (h : s.x syscallReg = svcReadInt) :
    syscallService word s = serviceReadInt word s := by
  simp [syscallService, h, svcPrintInt, svcPrintString, svcReadInt]

theorem service_exit (word : Word) {s : State} (h : s.x syscallReg = svcExit) :
    syscallService word s = .next (s.setPc s.tp) := by
  simp [syscallService, h, svcPrintInt, svcPrintString, svcReadInt, svcExit, serviceExit]

theorem service_unknown (word : Word) {s : State} (h1 : s.x syscallReg ≠ svcPrintInt)
    (h4 : s.x syscallReg ≠ svcPrintString) (h5 : s.x syscallReg ≠ svcReadInt) (h10 : s.x syscallReg ≠ svcExit) :
    syscallService word s = .next (s.anomaly .unknownSyscall word (some (s.x syscallReg))) := by
  simp [syscallService, h1, h4, h5, h10, serviceUnknown]

theorem serviceReadInt_value (word : Word) {s : State} {v : Word} {rest : List HostAnswer}
    (h : s.input = .value v :: rest) :
    serviceReadInt word s = .next ((({ s with input := rest } : State).setX syscallReg v).emit (.readInt v)) := by
  simp [serviceReadInt, hostReadInt, h]

theorem serviceReadInt_noValue (word : Word) {s : State} {rest : List HostAnswer} (h : s.input = .noValue :: rest) :
    serviceReadInt word s = .next (s.raise (plainFault .inputFault s.pcCur word none)) := by
  simp [serviceReadInt, hostReadInt, h]

theorem serviceReadInt_blocked (word : Word) {s : State} (h : s.input = []) :
    serviceReadInt word s = .fault .awaitingHost := by
  simp [serviceReadInt, hostReadInt, h]

/-- Every service number is one of these five cases (43 R210). -/
theorem service_cases (v : Word) :
    v = svcPrintInt ∨ v = svcPrintString ∨ v = svcReadInt ∨ v = svcExit ∨
      (v ≠ svcPrintInt ∧ v ≠ svcPrintString ∧ v ≠ svcReadInt ∧ v ≠ svcExit) := by
  by_cases h1 : v = svcPrintInt
  · exact .inl h1
  by_cases h4 : v = svcPrintString
  · exact .inr (.inl h4)
  by_cases h5 : v = svcReadInt
  · exact .inr (.inr (.inl h5))
  by_cases h10 : v = svcExit
  · exact .inr (.inr (.inr (.inl h10)))
  · exact .inr (.inr (.inr (.inr ⟨h1, h4, h5, h10⟩)))

/-! ### What exec and step can do -/

/-- Everything an execute phase that answers a next state can do. -/
inductive Effect (s : State) : State → Prop where
  /-- Nothing more than the fetch's advance (an untaken branch). -/
  | stay : Effect s s
  /-- One register written. -/
  | reg (rd : Reg) (v : Word) : Effect s (s.setX rd v)
  /-- A jump. -/
  | jump (t : Word) : Effect s (s.setPc t)
  /-- A jump that links. -/
  | link (rd : Reg) (v t : Word) : Effect s ((s.setX rd v).setPc t)
  /-- A word stored in bounds. -/
  | store (ea v : Word) (h : s.inBounds ea 4 = true) : Effect s { s with mem := s.mem.writeWord ea v }
  /-- One well-formed event that is no stop. -/
  | event (e : Event) (hw : e.WellFormed) (hs : e.isStop = false) : Effect s (s.emit e)
  /-- A completed read-integer. -/
  | read (v : Word) (rest : List HostAnswer) (h : s.input = .value v :: rest) :
      Effect s ((({ s with input := rest } : State).setX syscallReg v).emit (.readInt v))
  /-- A precise fault of this instruction. -/
  | fault (rec : FaultRecord) (hpc : rec.faultPc = s.pcCur) (hw : rec.WellFormed) : Effect s (s.raise rec)

theorem effect_regReg {f : Word → Word → Word} {rd rs rt : Reg} {s t : State} (h : regReg f rd rs rt s = .next t) :
    Effect s t := by cases h; exact .reg _ _

theorem effect_regImm {f : Word → Word → Word} {rt rs : Reg} {imm : BitVec 16} {s t : State}
    (h : regImm f rt rs imm s = .next t) : Effect s t := by cases h; exact .reg _ _

theorem effect_shiftReg {f : Word → Nat → Word} {rd rt : Reg} {n : Nat} {s t : State}
    (h : shiftReg f rd rt n s = .next t) : Effect s t := by cases h; exact .reg _ _

theorem effect_jumpIf {b : Bool} {target : Word} {s t : State} (h : jumpIf b target s = .next t) : Effect s t := by
  cases b <;> cases h
  · exact .stay
  · exact .jump _

theorem effect_accessMemory {op : LsuOp} {word : Word} {rt : Reg} {imm : BitVec 16} {rs : Reg} {s t : State}
    (h : accessMemory op word rt imm rs s = .next t) : Effect s t := by
  rcases accessMemory_cases op word rt imm rs s with ⟨_, h'⟩ | ⟨hb, ⟨hop, h'⟩ | ⟨_, v, h'⟩⟩ <;>
    (rw [h'] at h; cases h)
  · refine .fault _ rfl ?_
    cases op <;> simp [memoryFault, FaultRecord.WellFormed, LsuOp.kind, LsuOp.size]
  · subst hop; exact .store _ _ hb
  · exact .reg _ _

theorem printInt_wellFormed (v : Word) : (Event.printInt (sint v)).WellFormed := by
  have h1 := BitVec.le_toInt v
  have h2 := @BitVec.toInt_lt 32 v
  simp only [Event.WellFormed, sint]
  omega

theorem effect_syscallService {word : Word} {s t : State} (h : syscallService word s = .next t) : Effect s t := by
  unfold syscallService at h
  split at h
  · cases h; exact .event _ (printInt_wellFormed _) rfl
  split at h
  · rename_i h4
    unfold servicePrintString at h
    split at h
    · cases h
      refine .fault _ rfl ?_
      simp only [plainFault, FaultRecord.WellFormed, h4]
      simp [svcPrintString]
    · split at h
      · rename_i hs
        cases h
        exact .event _ (scan_noNul _ _ _ _ hs) rfl
      · cases h
        refine .fault _ rfl ?_
        simp [memoryFault, FaultRecord.WellFormed]
  split at h
  · unfold serviceReadInt hostReadInt at h
    cases hi : s.input with
    | nil => simp [hi] at h
    | cons a rest =>
      cases a with
      | value v => simp only [hi] at h; cases h; exact .read v rest hi
      | noValue =>
        simp only [hi] at h; cases h
        refine .fault _ rfl ?_
        simp [plainFault, FaultRecord.WellFormed]
  split at h
  · cases h; exact .jump _
  · rename_i h1 h4 h5 h10
    cases h
    unfold State.anomaly
    split
    · refine .fault _ rfl ⟨rfl, rfl, rfl, rfl, _, rfl, ?_⟩
      simp only [List.mem_cons, List.not_mem_nil, or_false, not_or]
      exact ⟨h1, h4, h5, h10⟩
    · refine .event _ ⟨_, rfl, ?_⟩ rfl
      simp only [List.mem_cons, List.not_mem_nil, or_false, not_or]
      exact ⟨h1, h4, h5, h10⟩

/-- Say once what an instruction can do: every next state of `exec` is one of the eight effects. -/
theorem exec_effect {i : Instr} {s t : State} (h : exec i s = .next t) : Effect s t := by
  cases i with
  | sll => exact effect_shiftReg h
  | sra => exact effect_shiftReg h
  | jr => exact effect_jumpIf h
  | syscall => exact effect_syscallService h
  | add => exact effect_regReg h
  | addu => exact effect_regReg h
  | sub => exact effect_regReg h
  | and => exact effect_regReg h
  | or => exact effect_regReg h
  | nor => exact effect_regReg h
  | slt => exact effect_regReg h
  | sltu => exact effect_regReg h
  | beq => exact effect_jumpIf h
  | bne => exact effect_jumpIf h
  | addi => exact effect_regImm h
  | slti => exact effect_regImm h
  | andi => exact effect_regImm h
  | ori => exact effect_regImm h
  | lui => cases h; exact .reg _ _
  | lw => exact effect_accessMemory h
  | lhu =>
    simp only [exec, execLhu] at h
    split at h
    · cases h
      refine .fault _ rfl ?_
      simp [plainFault, FaultRecord.WellFormed]
    · exact effect_accessMemory h
  | sw => exact effect_accessMemory h
  | j => exact effect_jumpIf h
  | jal => cases h; exact .link _ _ _

/-- An unrecognized word's effect (60 R243). -/
theorem effect_decodeAnomaly (w : Word) (s : State) : Effect s (s.anomaly .decodeAnomaly w none) := by
  unfold State.anomaly
  split
  · refine .fault _ rfl ?_
    simp [plainFault, FaultRecord.WellFormed, AnomalyKind.error]
  · exact .event _ rfl rfl

theorem effect_runWord {w : Word} {s t : State} (h : runWord w s = .next t) : Effect s t := by
  unfold runWord at h
  split at h
  · exact exec_effect h
  · cases h; exact effect_decodeAnomaly w s
  · cases h; exact effect_decodeAnomaly w s

/-- Say once what a step can do: it halts at TP, faults on a fetch out of bounds, or runs the word at `pc` (70 R283). -/
theorem step_cases {s t : State} (h : step s = .next t) :
    s.run = .running ∧
      ((s.pc = s.tp ∧ t = s.halt) ∨
        (s.pc ≠ s.tp ∧ s.inBounds s.pc 4 = false ∧ t = s.raise (memoryFault .fetch s.pc none s.pc 4)) ∨
        (s.pc ≠ s.tp ∧ s.inBounds s.pc 4 = true ∧ runWord (s.mem.readWord s.pc) s.advance = .next t ∧
          Effect s.advance t)) := by
  unfold step sequencerStep at h
  split at h
  · cases h
  · cases h
  · rename_i hr
    refine ⟨hr, ?_⟩
    split at h
    · rename_i hp; cases h; exact .inl ⟨hp, rfl⟩
    · rename_i hp
      refine .inr ?_
      unfold fetchAndRun at h
      cases hb : s.inBounds s.pc 4 with
      | false => rw [fetchUnit_fault hb] at h; cases h; exact .inl ⟨hp, rfl, rfl⟩
      | true => rw [fetchUnit_word hb] at h; exact .inr ⟨hp, rfl, h, effect_runWord h⟩

/-- The step of a state that fetches a word is that word's execution after the advance. -/
theorem step_of_fetches {s : State} {w : Word} (h : FetchesWord s w) : step s = runWord w s.advance := by
  obtain ⟨hr, hp, hb, hw⟩ := h
  unfold step sequencerStep
  rw [hr]
  simp only [if_neg hp, fetchAndRun, fetchUnit_word hb, hw]

/-- An access always answers a next state. -/
theorem accessMemory_completes (op : LsuOp) (word : Word) (rt : Reg) (imm : BitVec 16) (rs : Reg) (s : State) :
    ∃ t, accessMemory op word rt imm rs s = .next t := by
  rcases accessMemory_cases op word rt imm rs s with ⟨_, h⟩ | ⟨_, ⟨_, h⟩ | ⟨_, _, h⟩⟩ <;> exact ⟨_, h⟩

/-- Every service answers a next state but read-integer with no answer of the host (43 R213). -/
theorem syscallService_cases (word : Word) (s : State) :
    (∃ t, syscallService word s = .next t) ∨
      (syscallService word s = .fault .awaitingHost ∧ s.x syscallReg = svcReadInt ∧ s.input = []) := by
  rcases service_cases (s.x syscallReg) with h1 | h4 | h5 | h10 | ⟨h1, h4, h5, h10⟩
  · exact .inl ⟨_, service_printInt _ h1⟩
  · rw [service_printString _ h4]
    unfold servicePrintString
    split
    · exact .inl ⟨_, rfl⟩
    · split <;> exact .inl ⟨_, rfl⟩
  · rw [service_readInt _ h5]
    cases hi : s.input with
    | nil => exact .inr ⟨serviceReadInt_blocked _ hi, h5, rfl⟩
    | cons a rest =>
      cases a with
      | value v => exact .inl ⟨_, serviceReadInt_value _ hi⟩
      | noValue => exact .inl ⟨_, serviceReadInt_noValue _ hi⟩
  · exact .inl ⟨_, service_exit _ h10⟩
  · exact .inl ⟨_, service_unknown _ h1 h4 h5 h10⟩

/-- Every execute phase answers a next state but a read-integer with no answer of the host. -/
theorem exec_cases (i : Instr) (s : State) :
    (∃ t, exec i s = .next t) ∨
      (exec i s = .fault .awaitingHost ∧ (∃ g, i = .syscall g) ∧ s.x syscallReg = svcReadInt ∧ s.input = []) := by
  cases i
  case syscall g => exact (syscallService_cases _ s).imp id fun h => ⟨h.1, ⟨g, rfl⟩, h.2⟩
  case lw => exact .inl (accessMemory_completes _ _ _ _ _ s)
  case sw => exact .inl (accessMemory_completes _ _ _ _ _ s)
  case lhu =>
    simp only [exec, execLhu]
    split
    · exact .inl ⟨_, rfl⟩
    · exact .inl (accessMemory_completes _ _ _ _ _ s)
  all_goals exact .inl ⟨_, rfl⟩

/-- Placing a word lets the next step run it, where the four bytes at `pc` exist. -/
theorem fetches_withFetchWord (s : State) (nbits w : Nat) (h : s.inBounds s.pc 4 = true) :
    FetchesWord (s.withFetchWord nbits w) (tableWord nbits w) := by
  refine ⟨rfl, ?_, h, read_write_same s.mem (uint s.pc) 4 _⟩
  show s.pc ≠ if s.pc = s.tp then s.pc + 4#32 else s.tp
  split
  · intro he
    have := congrArg BitVec.toNat he
    simp only [BitVec.toNat_add, BitVec.toNat_ofNat] at this
    have := s.pc.isLt
    omega
  · assumption

end Sys2Proof.Machine
end

