-- ==== Sys2Proof/Laws/PerInstr.lean ====
section
/-!
SUPPORT. Per instruction: the word `encode` gives an instruction belongs to that instruction's row of spec/opcode_table.json.
-/
namespace Sys2Proof.Laws.EncodeRow

/-- The encoding lies in the instruction's row, and in no other row of the table. -/
def Statement (i : Instr) : Prop := ∀ row ∈ opcodeTable, row.holds (encode i) = true ↔ row.op = i.op

/-- An R-format word of a funct lies in the rows of that funct alone. -/
theorem of_R {w : Word} {f : BitVec 6} {op : Op} (ho : opcodeField w = 0x00#6) (hf : functField w = f)
    (hR : ∀ row ∈ opcodeRowsR, encR 0#5 0#5 0#5 0#5 f = row.pattern ↔ row.op = op)
    (hmR : ∀ row ∈ opcodeRowsR, row.mask = 0xFC00003F#32)
    (hIJ : ∀ row ∈ opcodeRowsIJ, ¬ encJ 0x00#6 0#26 = row.pattern ∧ row.op ≠ op)
    (hmIJ : ∀ row ∈ opcodeRowsIJ, row.mask = 0xFC000000#32) :
    ∀ row ∈ opcodeTable, row.holds w = true ↔ row.op = op := by
  intro row hrow
  rcases List.mem_append.mp hrow with h | h
  · simp only [OpcodeRow.holds, decide_eq_true_eq, hmR row h, maskR_of_fields ho hf, hR row h]
  · simp only [OpcodeRow.holds, decide_eq_true_eq, hmIJ row h, mask_of_opcode ho, (hIJ row h).1, (hIJ row h).2]

/-- An I- or J-format word of an opcode lies in the rows of that opcode alone. -/
theorem of_IJ {w : Word} {o : BitVec 6} {op : Op} (ho : opcodeField w = o) (h0 : o ≠ 0x00#6)
    (hR : ∀ row ∈ opcodeRowsR, row.op ≠ op ∧ row.mask = 0xFC00003F#32 ∧ opcodeField row.pattern = 0x00#6)
    (hIJ : ∀ row ∈ opcodeRowsIJ, encJ o 0#26 = row.pattern ↔ row.op = op)
    (hmIJ : ∀ row ∈ opcodeRowsIJ, row.mask = 0xFC000000#32) :
    ∀ row ∈ opcodeTable, row.holds w = true ↔ row.op = op := by
  intro row hrow
  rcases List.mem_append.mp hrow with h | h
  · obtain ⟨hop, hm, hp⟩ := hR row h
    simp only [OpcodeRow.holds, decide_eq_true_eq, hm, hop, iff_false]
    intro hw
    exact h0 (ho.symm.trans ((opcode_of_maskR hw).trans hp))
  · simp only [OpcodeRow.holds, decide_eq_true_eq, hmIJ row h, mask_of_opcode ho, hIJ row h]

theorem sll (rd rt : Reg) (shamt : Nat) (ign : BitVec 5) : Statement (.sll rd rt shamt ign) :=
  of_R (op := .SLL) (opcodeField_encR _ _ _ _ _) (functField_encR _ _ _ _ _) (by decide) (by decide) (by decide) (by decide)

theorem sra (rd rt : Reg) (shamt : Nat) (ign : BitVec 5) : Statement (.sra rd rt shamt ign) :=
  of_R (op := .SRA) (opcodeField_encR _ _ _ _ _) (functField_encR _ _ _ _ _) (by decide) (by decide) (by decide) (by decide)

theorem jr (rs : Reg) (ign : BitVec 15) : Statement (.jr rs ign) :=
  of_R (op := .JR) (opcodeField_encR _ _ _ _ _) (functField_encR _ _ _ _ _) (by decide) (by decide) (by decide) (by decide)

theorem syscall (ign : BitVec 20) : Statement (.syscall ign) :=
  of_R (op := .SYSCALL) (opcodeField_encR _ _ _ _ _) (functField_encR _ _ _ _ _) (by decide) (by decide) (by decide) (by decide)

theorem add (rd rs rt : Reg) (ign : BitVec 5) : Statement (.add rd rs rt ign) :=
  of_R (op := .ADD) (opcodeField_encR _ _ _ _ _) (functField_encR _ _ _ _ _) (by decide) (by decide) (by decide) (by decide)

theorem addu (rd rs rt : Reg) (ign : BitVec 5) : Statement (.addu rd rs rt ign) :=
  of_R (op := .ADDU) (opcodeField_encR _ _ _ _ _) (functField_encR _ _ _ _ _) (by decide) (by decide) (by decide) (by decide)

theorem sub (rd rs rt : Reg) (ign : BitVec 5) : Statement (.sub rd rs rt ign) :=
  of_R (op := .SUB) (opcodeField_encR _ _ _ _ _) (functField_encR _ _ _ _ _) (by decide) (by decide) (by decide) (by decide)

theorem and (rd rs rt : Reg) (ign : BitVec 5) : Statement (.and rd rs rt ign) :=
  of_R (op := .AND) (opcodeField_encR _ _ _ _ _) (functField_encR _ _ _ _ _) (by decide) (by decide) (by decide) (by decide)

theorem or (rd rs rt : Reg) (ign : BitVec 5) : Statement (.or rd rs rt ign) :=
  of_R (op := .OR) (opcodeField_encR _ _ _ _ _) (functField_encR _ _ _ _ _) (by decide) (by decide) (by decide) (by decide)

theorem nor (rd rs rt : Reg) (ign : BitVec 5) : Statement (.nor rd rs rt ign) :=
  of_R (op := .NOR) (opcodeField_encR _ _ _ _ _) (functField_encR _ _ _ _ _) (by decide) (by decide) (by decide) (by decide)

theorem slt (rd rs rt : Reg) (ign : BitVec 5) : Statement (.slt rd rs rt ign) :=
  of_R (op := .SLT) (opcodeField_encR _ _ _ _ _) (functField_encR _ _ _ _ _) (by decide) (by decide) (by decide) (by decide)

theorem sltu (rd rs rt : Reg) (ign : BitVec 5) : Statement (.sltu rd rs rt ign) :=
  of_R (op := .SLTU) (opcodeField_encR _ _ _ _ _) (functField_encR _ _ _ _ _) (by decide) (by decide) (by decide) (by decide)

theorem beq (rs rt : Reg) (imm : BitVec 16) : Statement (.beq rs rt imm) :=
  of_IJ (op := .BEQ) (opcodeField_encI _ _ _ _) (by decide) (by decide) (by decide) (by decide)

theorem bne (rs rt : Reg) (imm : BitVec 16) : Statement (.bne rs rt imm) :=
  of_IJ (op := .BNE) (opcodeField_encI _ _ _ _) (by decide) (by decide) (by decide) (by decide)

theorem addi (rt rs : Reg) (imm : BitVec 16) : Statement (.addi rt rs imm) :=
  of_IJ (op := .ADDI) (opcodeField_encI _ _ _ _) (by decide) (by decide) (by decide) (by decide)

theorem slti (rt rs : Reg) (imm : BitVec 16) : Statement (.slti rt rs imm) :=
  of_IJ (op := .SLTI) (opcodeField_encI _ _ _ _) (by decide) (by decide) (by decide) (by decide)

theorem andi (rt rs : Reg) (imm : BitVec 16) : Statement (.andi rt rs imm) :=
  of_IJ (op := .ANDI) (opcodeField_encI _ _ _ _) (by decide) (by decide) (by decide) (by decide)

theorem ori (rt rs : Reg) (imm : BitVec 16) : Statement (.ori rt rs imm) :=
  of_IJ (op := .ORI) (opcodeField_encI _ _ _ _) (by decide) (by decide) (by decide) (by decide)

theorem lui (rt : Reg) (imm : BitVec 16) (ign : BitVec 5) : Statement (.lui rt imm ign) :=
  of_IJ (op := .LUI) (opcodeField_encI _ _ _ _) (by decide) (by decide) (by decide) (by decide)

theorem lw (rt : Reg) (imm : BitVec 16) (rs : Reg) : Statement (.lw rt imm rs) :=
  of_IJ (op := .LW) (opcodeField_encI _ _ _ _) (by decide) (by decide) (by decide) (by decide)

theorem lhu (rt : Reg) (imm : BitVec 16) (rs : Reg) : Statement (.lhu rt imm rs) :=
  of_IJ (op := .LHU) (opcodeField_encI _ _ _ _) (by decide) (by decide) (by decide) (by decide)

theorem sw (rt : Reg) (imm : BitVec 16) (rs : Reg) : Statement (.sw rt imm rs) :=
  of_IJ (op := .SW) (opcodeField_encI _ _ _ _) (by decide) (by decide) (by decide) (by decide)

theorem j (target : BitVec 26) : Statement (.j target) :=
  of_IJ (op := .J) (opcodeField_encJ _ _) (by decide) (by decide) (by decide) (by decide)

theorem jal (target : BitVec 26) : Statement (.jal target) :=
  of_IJ (op := .JAL) (opcodeField_encJ _ _) (by decide) (by decide) (by decide) (by decide)

end Sys2Proof.Laws.EncodeRow
end

