-- ==== Sys2Proof/Tests/Slice0.lean ====
section
/-!
SUPPORT. Tests: ill-formed terms that the checks refuse, one word per constructor written out from spec/30_encoding.md,
single-step vectors of spec/95_test_vectors.md (the vector's id stands before each), and a witness that the hypotheses of
each obligation can be met.
-/
namespace Sys2Proof.Tests
open Sys2Proof Sys2Proof.Machine

/-! ### Ill-formed terms are refused -/

/-- The bundle of add r3, r4, r5, written out. -/
def bundle : Decoded where
  fmt := .R
  opcode := 0x00#6
  rs := 4#5
  rt := 5#5
  rd := 3#5
  shamt := 0#5
  funct := 0x20#6
  imm16 := 0x1820#16
  simm := 0x00001820#32
  target := 0x00851820#32
  op := .ADD

theorem test_bundle_ok : bundle.wellFormed = true := by decide
theorem test_bundle_decoded : decodeBundle 0x00851820#32 = bundle := by decide
theorem test_fmt_refused : ({ bundle with fmt := .I } : Decoded).fmtOk = false := by decide
theorem test_lowHalf_refused : ({ bundle with shamt := 1#5 } : Decoded).lowHalfOk = false := by decide
theorem test_simm_refused : ({ bundle with simm := 0x00851820#32 } : Decoded).simmOk = false := by decide
theorem test_target_refused : ({ bundle with target := 0x00001820#32 } : Decoded).targetOk = false := by decide
theorem test_bundle_refused : ({ bundle with target := 0x00001820#32 } : Decoded).wellFormed = false := by decide
theorem test_sll_32_refused : (Instr.sll 6 5 32 0#5).wellFormed = false := by decide
theorem test_sra_32_refused : (Instr.sra 6 5 32 0#5).wellFormed = false := by decide
theorem test_sll_31_ok : (Instr.sll 6 5 31 0#5).wellFormed = true := by decide

/-! ### One word per constructor, and words that decode to nothing -/

-- opcode 000000 rs 00000 rt 00101 rd 00110 shamt 11111 funct 000000
theorem decode_sll : decode 0x000537C0#32 = .instr (.sll 6 5 31 0#5) ∧ encode (.sll 6 5 31 0#5) = 0x000537C0#32 := by decide
-- opcode 000000 rs 00000 rt 00101 rd 00110 shamt 00100 funct 000011
theorem decode_sra : decode 0x00053103#32 = .instr (.sra 6 5 4 0#5) ∧ encode (.sra 6 5 4 0#5) = 0x00053103#32 := by decide
-- opcode 000000 rs 11111 rt 00000 rd 11111 shamt 00000 funct 001000
theorem decode_jr : decode 0x03E0F808#32 = .instr (.jr 31 0x03E0#15) ∧ encode (.jr 31 0x03E0#15) = 0x03E0F808#32 := by decide
-- opcode 000000, bits 25:6 all ones, funct 001100
theorem decode_syscall : decode 0x03FFFFCC#32 = .instr (.syscall 0xFFFFF#20) ∧ encode (.syscall 0xFFFFF#20) = 0x03FFFFCC#32 := by decide
-- opcode 000000 rs 00100 rt 00101 rd 00011 shamt 00000 funct 100000
theorem decode_add : decode 0x00851820#32 = .instr (.add 3 4 5 0#5) ∧ encode (.add 3 4 5 0#5) = 0x00851820#32 := by decide
-- opcode 000000 rs 00001 rt 00010 rd 00011 shamt 00000 funct 100001
theorem decode_addu : decode 0x00221821#32 = .instr (.addu 3 1 2 0#5) ∧ encode (.addu 3 1 2 0#5) = 0x00221821#32 := by decide
-- opcode 000000 rs 00100 rt 00101 rd 00110 shamt 00000 funct 100010
theorem decode_sub : decode 0x00853022#32 = .instr (.sub 6 4 5 0#5) ∧ encode (.sub 6 4 5 0#5) = 0x00853022#32 := by decide
-- opcode 000000 rs 00001 rt 00010 rd 00011 shamt 00000 funct 100100
theorem decode_and : decode 0x00221824#32 = .instr (.and 3 1 2 0#5) ∧ encode (.and 3 1 2 0#5) = 0x00221824#32 := by decide
-- funct 100101
theorem decode_or : decode 0x00221825#32 = .instr (.or 3 1 2 0#5) ∧ encode (.or 3 1 2 0#5) = 0x00221825#32 := by decide
-- funct 100111
theorem decode_nor : decode 0x00221827#32 = .instr (.nor 3 1 2 0#5) ∧ encode (.nor 3 1 2 0#5) = 0x00221827#32 := by decide
-- funct 101010
theorem decode_slt : decode 0x0022182A#32 = .instr (.slt 3 1 2 0#5) ∧ encode (.slt 3 1 2 0#5) = 0x0022182A#32 := by decide
-- funct 101011
theorem decode_sltu : decode 0x0022182B#32 = .instr (.sltu 3 1 2 0#5) ∧ encode (.sltu 3 1 2 0#5) = 0x0022182B#32 := by decide
-- opcode 000100 rs 00001 rt 00010 imm16 0x0040
theorem decode_beq : decode 0x10220040#32 = .instr (.beq 1 2 0x0040#16) ∧ encode (.beq 1 2 0x0040#16) = 0x10220040#32 := by decide
-- opcode 000101 rs 01001 rt 00000 imm16 0x0008
theorem decode_bne : decode 0x15200008#32 = .instr (.bne 9 0 0x0008#16) ∧ encode (.bne 9 0 0x0008#16) = 0x15200008#32 := by decide
-- opcode 001000 rs 00000 rt 00100 imm16 0x0005
theorem decode_addi : decode 0x20040005#32 = .instr (.addi 4 0 0x0005#16) ∧ encode (.addi 4 0 0x0005#16) = 0x20040005#32 := by decide
-- opcode 001010 rs 00001 rt 00010 imm16 0xFFFF
theorem decode_slti : decode 0x2822FFFF#32 = .instr (.slti 2 1 0xFFFF#16) ∧ encode (.slti 2 1 0xFFFF#16) = 0x2822FFFF#32 := by decide
-- opcode 001100 rs 00001 rt 00010 imm16 0x8000
theorem decode_andi : decode 0x30228000#32 = .instr (.andi 2 1 0x8000#16) ∧ encode (.andi 2 1 0x8000#16) = 0x30228000#32 := by decide
-- opcode 001101 rs 00001 rt 00001 imm16 0x8001
theorem decode_ori : decode 0x34218001#32 = .instr (.ori 1 1 0x8001#16) ∧ encode (.ori 1 1 0x8001#16) = 0x34218001#32 := by decide
-- opcode 001111 rs 00000 rt 00001 imm16 0x1234
theorem decode_lui : decode 0x3C011234#32 = .instr (.lui 1 0x1234#16 0#5) ∧ encode (.lui 1 0x1234#16 0#5) = 0x3C011234#32 := by decide
-- opcode 100011 rs 00001 rt 00010 imm16 0x0001
theorem decode_lw : decode 0x8C220001#32 = .instr (.lw 2 0x0001#16 1) ∧ encode (.lw 2 0x0001#16 1) = 0x8C220001#32 := by decide
-- opcode 100101 rs 00000 rt 01011 imm16 0x0102
theorem decode_lhu : decode 0x940B0102#32 = .instr (.lhu 11 0x0102#16 0) ∧ encode (.lhu 11 0x0102#16 0) = 0x940B0102#32 := by decide
-- opcode 101011 rs 11101 rt 01000 imm16 0x0000
theorem decode_sw : decode 0xAFA80000#32 = .instr (.sw 8 0x0000#16 29) ∧ encode (.sw 8 0x0000#16 29) = 0xAFA80000#32 := by decide
-- opcode 000010 target26 0x0002000
theorem decode_j : decode 0x08002000#32 = .instr (.j 0x0002000#26) ∧ encode (.j 0x0002000#26) = 0x08002000#32 := by decide
-- opcode 000011 target26 0x0000010
theorem decode_jal : decode 0x0C000010#32 = .instr (.jal 0x0000010#26) ∧ encode (.jal 0x0000010#26) = 0x0C000010#32 := by decide
-- 30 R92: funct 0x3F, funct 0x23 (90 C1), opcode 0x09, opcode 0x3F
theorem decode_rejected : decode 0x0000003F#32 = .unrecognizedFunct ∧ decode 0x00221823#32 = .unrecognizedFunct ∧
    decode 0x24020001#32 = .unrecognizedOpcode ∧ decode 0xFC000000#32 = .unrecognizedOpcode := by decide
-- the bytes of the word, first byte most significant (20 R52), and a table word of 32 bits
theorem decode_bytes : decodeBytes [0x8C#8, 0x22#8, 0x00#8, 0x01#8, 0xFF#8] = some (.instr (.lw 2 0x0001#16 1), [0xFF#8]) ∧
    decodeTableWord 32 0x8C220001 = some (.lw 2 0x0001#16 1) ∧ decodeTableWord 32 0x0000003F = none := by decide

/-! ### One step -/

/-- A loaded one-word program, with some registers, bytes of memory and host answers set. -/
def vector (c : Config) (w : Word) (xs : List (Reg × Word)) (bytes : List (Nat × Byte)) (answers : List HostAnswer) : State :=
  xs.foldl (fun s p => s.setX p.1 p.2)
    { State.resetWith c with
      mem := bytes.foldl (fun m p => m.writeByte p.1 p.2) (Memory.loadWords [] 0 [w])
      tp := 0x00000004#32
      input := answers }

/-- What a step's next state shows. -/
def shows (f : State → α) (r : Result) : Option α :=
  match r with
  | .next t => some (f t)
  | .fault _ => none
  | .refused _ => none

def strict : Config := { Config.default with strictDecode := true }
def hardwired : Config := { Config.default with r0Hardwired := true }
def lhuFault : Config := { Config.default with lhuMode := .fault }
def printing : Config := { Config.default with printStringMode := .implement }

/-- One step of a vector in the default build. -/
def stepOf (w : Word) (xs : List (Reg × Word)) (bytes : List (Nat × Byte)) : Result :=
  step (vector Config.default w xs bytes [])

/-- One step of a syscall vector. -/
def syscallOf (c : Config) (xs : List (Reg × Word)) (bytes : List (Nat × Byte)) (answers : List HostAnswer) : Result :=
  step (vector c 0x0000000C#32 xs bytes answers)

-- A1
theorem test_add_wraps : shows (fun t => (t.x 3, t.pc)) (stepOf 0x00221820#32 [(1, 0x7FFFFFFF#32), (2, 0x00000001#32)] []) =
    some (0x80000000#32, 0x00000004#32) := by decide
-- A2
theorem test_add_carries_out : shows (fun t => (t.x 3, t.pc)) (stepOf 0x00221820#32 [(1, 0xFFFFFFFF#32), (2, 0x00000001#32)] []) =
    some (0x00000000#32, 0x00000004#32) := by decide
-- A3
theorem test_addu : shows (fun t => (t.x 3, t.pc)) (stepOf 0x00221821#32 [(1, 0x7FFFFFFF#32), (2, 0x00000001#32)] []) =
    some (0x80000000#32, 0x00000004#32) := by decide
-- A4
theorem test_sub_no_fault : shows (fun t => (t.x 3, t.pc)) (stepOf 0x00221822#32 [(1, 0x80000000#32), (2, 0x00000001#32)] []) =
    some (0x7FFFFFFF#32, 0x00000004#32) := by decide
-- 40 R125
theorem test_sub_order : shows (fun t => (t.x 6, t.pc)) (stepOf 0x00853022#32 [(4, 0x00000003#32), (5, 0x00000005#32)] []) =
    some (0xFFFFFFFE#32, 0x00000004#32) := by decide
-- A7
theorem test_and : shows (fun t => (t.x 3, t.pc)) (stepOf 0x00221824#32 [(1, 0xFF00FF00#32), (2, 0x0FF00FF0#32)] []) =
    some (0x0F000F00#32, 0x00000004#32) := by decide
-- A8
theorem test_or : shows (fun t => (t.x 3, t.pc)) (stepOf 0x00221825#32 [(1, 0xFF00FF00#32), (2, 0x0FF00FF0#32)] []) =
    some (0xFFF0FFF0#32, 0x00000004#32) := by decide
-- A9
theorem test_nor : shows (fun t => (t.x 3, t.pc)) (stepOf 0x00221827#32 [(1, 0xFF00FF00#32), (2, 0x0FF00FF0#32)] []) =
    some (0x000F000F#32, 0x00000004#32) := by decide
-- A12
theorem test_slt_extremes : shows (fun t => (t.x 3, t.pc)) (stepOf 0x0022182A#32 [(1, 0x80000000#32), (2, 0x7FFFFFFF#32)] []) =
    some (0x00000001#32, 0x00000004#32) := by decide
-- A13
theorem test_slt_equal : shows (fun t => (t.x 3, t.pc)) (stepOf 0x0022182A#32 [(1, 0x00000005#32), (2, 0x00000005#32), (3, 0x00000009#32)] []) =
    some (0x00000000#32, 0x00000004#32) := by decide
-- A14
theorem test_sltu_unsigned : shows (fun t => (t.x 3, t.pc)) (stepOf 0x0022182B#32 [(1, 0xFFFFFFFF#32), (2, 0x00000001#32), (3, 0x00000009#32)] []) =
    some (0x00000000#32, 0x00000004#32) := by decide
-- A15
theorem test_sltu_less : shows (fun t => (t.x 3, t.pc)) (stepOf 0x0022182B#32 [(1, 0x00000000#32), (2, 0xFFFFFFFF#32)] []) =
    some (0x00000001#32, 0x00000004#32) := by decide
-- SH1
theorem test_sll_to_sign : shows (fun t => (t.x 6, t.pc)) (stepOf 0x000537C0#32 [(5, 0x00000001#32)] []) =
    some (0x80000000#32, 0x00000004#32) := by decide
-- SH2
theorem test_sll_drops : shows (fun t => (t.x 6, t.pc)) (stepOf 0x00053040#32 [(5, 0x80000001#32)] []) =
    some (0x00000002#32, 0x00000004#32) := by decide
-- SH4
theorem test_sra_sign : shows (fun t => (t.x 6, t.pc)) (stepOf 0x00053103#32 [(5, 0x80000000#32)] []) =
    some (0xF8000000#32, 0x00000004#32) := by decide
-- SH7
theorem test_sra_floor : shows (fun t => (t.x 6, t.pc)) (stepOf 0x00053043#32 [(5, 0xFFFFFFFB#32)] []) =
    some (0xFFFFFFFD#32, 0x00000004#32) := by decide
-- I3
theorem test_addi_wraps : shows (fun t => (t.x 2, t.pc)) (stepOf 0x20220001#32 [(1, 0x7FFFFFFF#32)] []) =
    some (0x80000000#32, 0x00000004#32) := by decide
-- Z2: a hardwired register 0 discards the write
theorem test_addi_r0_hardwired : shows (fun t => (t.x 0, t.pc)) (step (vector hardwired 0x20000005#32 [] [] [])) =
    some (0x00000000#32, 0x00000004#32) := by decide
-- I4
theorem test_slti_signed : shows (fun t => (t.x 2, t.pc)) (stepOf 0x2822FFFF#32 [(1, 0xFFFFFFFE#32)] []) =
    some (0x00000001#32, 0x00000004#32) := by decide
-- I5
theorem test_slti_equal : shows (fun t => (t.x 2, t.pc)) (stepOf 0x2822FFFF#32 [(1, 0xFFFFFFFF#32), (2, 0x00000009#32)] []) =
    some (0x00000000#32, 0x00000004#32) := by decide
-- I6
theorem test_andi_sign_extends : shows (fun t => (t.x 2, t.pc)) (stepOf 0x30228000#32 [(1, 0x12345678#32)] []) =
    some (0x12340000#32, 0x00000004#32) := by decide
-- I7
theorem test_andi_positive : shows (fun t => (t.x 2, t.pc)) (stepOf 0x30227FFF#32 [(1, 0x12345678#32)] []) =
    some (0x00005678#32, 0x00000004#32) := by decide
-- I9
theorem test_ori_sign_extends : shows (fun t => (t.x 1, t.pc)) (stepOf 0x34218001#32 [(1, 0x12340000#32)] []) =
    some (0xFFFF8001#32, 0x00000004#32) := by decide
-- I10
theorem test_ori_positive : shows (fun t => (t.x 1, t.pc)) (stepOf 0x3421000A#32 [(1, 0x20020000#32)] []) =
    some (0x2002000A#32, 0x00000004#32) := by decide
-- I12
theorem test_lui : shows (fun t => (t.x 1, t.pc)) (stepOf 0x3C01FFFF#32 [] []) =
    some (0xFFFF0000#32, 0x00000004#32) := by decide
-- M5: the address wraps to 0 and loads the instruction's own word
theorem test_lw_wraps : shows (fun t => (t.x 2, t.pc)) (stepOf 0x8C220001#32 [(1, 0xFFFFFFFF#32)] []) =
    some (0x8C220001#32, 0x00000004#32) := by decide
-- M13
theorem test_lhu_unaligned : shows (fun t => (t.x 2, t.pc)) (stepOf 0x94020101#32 [] [(0x100, 0x11#8), (0x101, 0x22#8), (0x102, 0x33#8)]) =
    some (0x00002233#32, 0x00000004#32) := by decide
-- B1
theorem test_beq_taken : shows (fun t => t.pc) (stepOf 0x10220040#32 [(1, 0x00000007#32), (2, 0x00000007#32)] []) = some 0x00000040#32 := by decide
-- B2
theorem test_beq_untaken : shows (fun t => t.pc) (stepOf 0x10220040#32 [(1, 0x00000007#32), (2, 0x00000008#32)] []) = some 0x00000004#32 := by decide
-- B3
theorem test_bne_taken : shows (fun t => t.pc) (stepOf 0x15200008#32 [(9, 0x00000004#32)] []) = some 0x00000008#32 := by decide
-- B4
theorem test_bne_untaken : shows (fun t => t.pc) (stepOf 0x15290008#32 [(9, 0x00000004#32)] []) = some 0x00000004#32 := by decide
-- J1
theorem test_j : shows (fun t => t.pc) (stepOf 0x08000014#32 [] []) = some 0x00000014#32 := by decide
-- J5
theorem test_jr_unaligned : shows (fun t => t.pc) (stepOf 0x00200008#32 [(1, 0x00000002#32)] []) = some 0x00000002#32 := by decide
-- J2: at address 4
theorem test_jal : shows (fun t => (t.x 31, t.pc))
    (step (State.placeWord { State.reset with pc := 0x00000004#32 } 0x0C000010#32)) =
    some (0x00000008#32, 0x00000010#32) := by decide
-- M2: no byte is loaded across the end of memory
theorem test_lw_out_of_bounds : shows (fun t => (t.run, t.x 2, t.pc)) (stepOf 0x8C021FFD#32 [] []) =
    some (.faulted ⟨.memoryFault, some .load, 0x00000000#32, some 0x8C021FFD#32, some 0x00001FFD#32, some 4, none⟩,
      0x00000000#32, 0x00000000#32) := by decide
-- M14: no address check happens
theorem test_lhu_fault_mode : shows (fun t => t.run) (step (vector lhuFault 0x94020100#32 [] [] [])) =
    some (.faulted ⟨.unimplementedOpcode, none, 0x00000000#32, some 0x94020100#32, none, none, none⟩) := by decide
-- M7
theorem test_sw : shows (fun t => (List.range 6).map fun k => t.mem.readByte (0x1FFB + k))
    (stepOf 0xAC011FFC#32 [(1, 0xAABBCCDD#32)] []) =
    some [0x00#8, 0xAA#8, 0xBB#8, 0xCC#8, 0xDD#8, 0x00#8] := by decide
-- M9
theorem test_sw_out_of_bounds : shows (fun t => (t.run, t.mem.readByte 0x1FFE, t.mem.readByte 0x1FFF))
    (stepOf 0xAC011FFE#32 [(1, 0xAABBCCDD#32)] []) =
    some (.faulted ⟨.memoryFault, some .store, 0x00000000#32, some 0xAC011FFE#32, some 0x00001FFE#32, some 4, none⟩,
      0x00#8, 0x00#8) := by decide

/-! ### System calls and the words outside the tables -/

-- Y3
theorem test_print_int : shows (fun t => (t.events, t.pc)) (syscallOf Config.default [(2, 1#32), (4, 0x80000000#32)] [] []) =
    some ([.printInt (-2147483648)], 0x00000004#32) := by decide
-- Y4
theorem test_print_string_fault : shows (fun t => t.run) (syscallOf Config.default [(2, 4#32), (4, 0x200#32)] [] []) =
    some (.faulted ⟨.unimplementedOpcode, none, 0x00000000#32, some 0x0000000C#32, none, none, some 4#32⟩) := by decide
-- Y5
theorem test_print_string : shows (fun t => t.events)
    (syscallOf printing [(2, 4#32), (4, 0x200#32)] [(0x200, 0x48#8), (0x201, 0x69#8)] []) =
    some [.printString [0x48#8, 0x69#8]] := by decide
-- Y7
theorem test_print_string_end : shows (fun t => t.run)
    (syscallOf printing [(2, 4#32), (4, 0x1FFE#32)] [(0x1FFE, 0x41#8), (0x1FFF, 0x42#8)] []) =
    some (.faulted ⟨.memoryFault, some .load, 0x00000000#32, some 0x0000000C#32, some 0x00002000#32, some 1, none⟩) := by
  decide
-- Y9
theorem test_read_int : shows (fun t => (t.x 2, t.events, t.input))
    (syscallOf Config.default [(2, 5#32)] [] [.value 0xFFFFFFF9#32, .noValue]) =
    some (0xFFFFFFF9#32, [.readInt 0xFFFFFFF9#32], [.noValue]) := by decide
-- Y10
theorem test_read_int_no_value : shows (fun t => (t.run, t.x 2)) (syscallOf Config.default [(2, 5#32)] [] [.noValue]) =
    some (.faulted ⟨.inputFault, none, 0x00000000#32, some 0x0000000C#32, none, none, none⟩, 5#32) := by decide
-- Y11
theorem test_read_int_waits : syscallOf Config.default [(2, 5#32)] [] [] = .fault .awaitingHost := rfl
-- Y12, first step
theorem test_exit : shows (fun t => (t.pc, t.run, t.events)) (syscallOf Config.default [(2, 0xA#32)] [] []) =
    some (0x00000004#32, .running, []) := by decide
-- Y15
theorem test_unknown_service : shows (fun t => (t.pc, t.events)) (syscallOf Config.default [(2, 0x10A#32)] [] []) =
    some (0x00000004#32, [.anomaly .unknownSyscall 0x00000000#32 0x0000000C#32 (some 0x0000010A#32)]) := by decide
-- Y14
theorem test_unknown_service_strict : shows (fun t => (t.pc, t.run)) (syscallOf strict [] [] []) =
    some (0x00000000#32,
      .faulted ⟨.unknownSyscall, none, 0x00000000#32, some 0x0000000C#32, none, none, some 0x00000000#32⟩) := by decide
-- D1
theorem test_unrecognized : shows (fun t => (t.pc, t.run, t.events)) (stepOf 0x0000003F#32 [] []) =
    some (0x00000004#32, .running, [.anomaly .decodeAnomaly 0x00000000#32 0x0000003F#32 none]) := by decide
-- D5
theorem test_unrecognized_strict : shows (fun t => (t.pc, t.run)) (step (vector strict 0xFC000000#32 [] [] [])) =
    some (0x00000000#32, .faulted ⟨.decodeAnomaly, none, 0x00000000#32, some 0xFC000000#32, none, none, none⟩) := by decide
-- H1
theorem test_empty_program : shows (fun t => (t.pc, t.run, t.events)) (step State.reset) =
    some (0x00000000#32, .halted, [.stop .halted]) := by decide
-- J4, second step
theorem test_fetch_fault : shows (fun t => (t.pc, t.run))
    (step { vector Config.default 0x08001FFD#32 [] [] [] with pc := 0x00001FFD#32 }) =
    some (0x00001FFD#32, .faulted ⟨.memoryFault, some .fetch, 0x00001FFD#32, none, some 0x00001FFD#32, some 4, none⟩) := by
  decide
-- the host's question about a table row: the placed word runs as the first instruction after reset
theorem test_withFetchWord : step (State.reset.withFetchWord 32 0x20040005) =
    exec (.addi 4 0 0x0005#16) { State.reset.withFetchWord 32 0x20040005 with pc := 0x00000004#32 } := rfl

/-! ### Witnesses: the hypotheses of the obligations can be met -/

/-- addi r4, r0, 5 at address 0. -/
def addiState : State := vector Config.default 0x20040005#32 [] [] []
/-- A syscall at address 0 in a build, as its execute phase finds it. -/
def syscallState (c : Config) (xs : List (Reg × Word)) (bytes : List (Nat × Byte)) (answers : List HostAnswer) : State :=
  (vector c 0x0000000C#32 xs bytes answers).advance
/-- The default reset state with `pc` somewhere else. -/
def atPc (a : Word) : State := { State.reset with pc := a, tp := 0x00000004#32 }

-- EncodersShiftFieldsAndFieldsReadBack, third clause
theorem witness_encoders : opcodeField 0x00851820#32 = 0x00#6 := by decide
-- OpcodeTableSelectsTheOperation
theorem witness_table : (∃ row ∈ opcodeTable, row.holds 0x00851820#32 = true) ∧
    (∀ row ∈ opcodeTable, row.holds 0x0000003F#32 = false) ∧ opOf 0x0000003F#32 = .UNRECOGNIZED := by decide
-- DecodeOfEncodeIsIdentity, at the greatest shift count; EncodeOfDecodeIsIdentity
theorem witness_roundTrip : (Instr.sll 31 31 31 0x1F#5).wellFormed = true ∧
    decode 0x03FFFFC0#32 = .instr (.sll 31 31 31 0x1F#5) := by decide
-- DispatchFollowsTheOpcode
theorem witness_dispatch : (decodeBundle 0x08000014#32).fmt = .J ∧
    opcodeField 0x24020001#32 ∉ [0x00#6, 0x02#6, 0x03#6, 0x04#6, 0x05#6, 0x08#6, 0x0A#6, 0x0C#6, 0x0D#6, 0x0F#6, 0x23#6,
      0x25#6, 0x2B#6] := by decide
-- IgnoredFieldsHaveNoEffect, second and third clause: an anomaly, a fault, and a core that waits
theorem witness_ignored : (∃ t, exec (.syscall 0xFFFFF#20) (syscallState Config.default [] [] []) = .next t) ∧
    (∃ t, exec (.syscall 0xFFFFF#20) (syscallState strict [] [] []) = .next t) ∧
    exec (.syscall 0xFFFFF#20) (syscallState Config.default [(2, 5#32)] [] []) = .fault .awaitingHost :=
  ⟨⟨_, rfl⟩, ⟨_, rfl⟩, rfl⟩
-- OperandsAreAssembledAsListed, last clause
theorem witness_shiftCount : decode 0x000537C0#32 = .instr (.sll 6 5 31 0#5) ∧
    decode 0x00053103#32 = .instr (.sra 6 5 4 0#5) := by decide
-- StepRunsTheDecodedInstruction
theorem witness_step : FetchesWord addiState 0x20040005#32 ∧ decode 0x20040005#32 = .instr (.addi 4 0 0x0005#16) :=
  ⟨⟨rfl, by decide, by decide, by decide⟩, by decide⟩
-- HaltExactlyWhenPcEqualsTp, ChecksRunInTheirOrder, StepAppendsAtMostOneEvent, RunEndsOnlyAtTpOrByFault
theorem witness_halt : State.reset.run = .running ∧ State.reset.pc = State.reset.tp ∧ ∃ t, step State.reset = .next t :=
  ⟨rfl, rfl, _, rfl⟩
-- FetchOutOfBoundsFaults, on both sides of the last fetchable address, and ChecksRunInTheirOrder
theorem witness_fetch : (atPc 0x00001FFD#32).run = .running ∧ (atPc 0x00001FFD#32).pc ≠ (atPc 0x00001FFD#32).tp ∧
    ¬ ((atPc 0x00001FFD#32).pc.toNat + 4 ≤ (atPc 0x00001FFD#32).cfg.memSize) ∧
    (atPc 0x00001FFD#32).inBounds (atPc 0x00001FFD#32).pc 4 = false ∧
    (atPc 0x00001FFC#32).pc.toNat + 4 ≤ (atPc 0x00001FFC#32).cfg.memSize := by decide
-- UnrecognizedWordIsAnomalyOrFault and ChecksRunInTheirOrder: a funct, lax; an opcode, strict
theorem witness_unrecognized_funct : FetchesWord (vector Config.default 0x0000003F#32 [] [] []) 0x0000003F#32 ∧
    UnrecognizedWord 0x0000003F#32 ∧ opOf 0x0000003F#32 = .UNRECOGNIZED ∧
    (vector Config.default 0x0000003F#32 [] [] []).cfg.strictDecode = false :=
  ⟨⟨rfl, by decide, by decide, by decide⟩, .inl (by decide), by decide, by decide⟩
theorem witness_unrecognized_opcode : FetchesWord (vector strict 0xFC000000#32 [] [] []) 0xFC000000#32 ∧
    UnrecognizedWord 0xFC000000#32 ∧ (vector strict 0xFC000000#32 [] [] []).cfg.strictDecode = true :=
  ⟨⟨rfl, by decide, by decide, by decide⟩, .inr (by decide), by decide⟩
-- StoppedCoreHasNoStep
theorem witness_stopped : State.reset.halt.run ≠ .running ∧
    (State.reset.raise (plainFault .inputFault 0x00000000#32 0x0000000C#32 none)).run ≠ .running := by decide
-- RunningCoreStepsUnlessAwaitingHost, where the core waits
theorem witness_waits : (vector Config.default 0x0000000C#32 [(2, 5#32)] [] []).run = .running := by decide
-- FaultsArePrecise and FaultKindsHaveTheirCauses: a step that raises each kind
theorem witness_fault_fetch : Config.default.WellFormed ∧ ∃ t rec, step (atPc 0x00001FFD#32) = .next t ∧
    t.run = .faulted rec ∧ rec.error = .memoryFault := ⟨by decide, _, _, rfl, rfl, rfl⟩
theorem witness_fault_store : ∃ t rec, step (vector Config.default 0xAFA10000#32 [] [] []) = .next t ∧
    t.run = .faulted rec ∧ rec.error = .memoryFault := ⟨_, _, rfl, rfl, rfl⟩
theorem witness_fault_decode : strict.WellFormed ∧ ∃ t rec, step (vector strict 0x0000003F#32 [] [] []) = .next t ∧
    t.run = .faulted rec ∧ rec.error = .decodeAnomaly := ⟨by decide, _, _, rfl, rfl, rfl⟩
theorem witness_fault_unimplemented : lhuFault.WellFormed ∧ ∃ t rec,
    step (vector lhuFault 0x94020100#32 [] [] []) = .next t ∧ t.run = .faulted rec ∧ rec.error = .unimplementedOpcode :=
  ⟨by decide, _, _, rfl, rfl, rfl⟩
theorem witness_fault_input : ∃ t rec, step (vector Config.default 0x0000000C#32 [(2, 5#32)] [] [.noValue]) = .next t ∧
    t.run = .faulted rec ∧ rec.error = .inputFault := ⟨_, _, rfl, rfl, rfl⟩
theorem witness_fault_unknown : ∃ t rec, step (vector strict 0x0000000C#32 [] [] []) = .next t ∧
    t.run = .faulted rec ∧ rec.error = .unknownSyscall := ⟨_, _, rfl, rfl, rfl⟩
-- TextPointerAndConfigurationNeverWritten, BootGivesTheResetValues: a program of two words, in a build that is not the default
theorem witness_boot : strict.WellFormed ∧ (∃ s, State.boot strict [0x20040005#32, 0x0000000C#32] = some s) ∧
    1 < [0x20040005#32, 0x0000000C#32].length ∧ 4 * [0x20040005#32, 0x0000000C#32].length ≤ 8 :=
  ⟨by decide, ⟨_, rfl⟩, by decide, by decide⟩
-- OnlyExitReadsTextPointer: an instruction, a service that answers and one that waits
theorem witness_readsTp : (Instr.addi 4 0 0x0005#16).op ≠ .SYSCALL ∧
    (∃ t, exec (.addi 4 0 0x0005#16) addiState = .next t) ∧
    (syscallState Config.default [(2, 5#32)] [] []).x 2 ≠ 0x0000000A#32 ∧
    exec (.syscall 0#20) (syscallState Config.default [(2, 5#32)] [] []) = .fault .awaitingHost :=
  ⟨by decide, ⟨_, rfl⟩, by decide, rfl⟩
-- ChecksRunInTheirOrder, LoadHalfwordReadsOrFaults, PrintStringEmitsOrFaults: the two operations a build leaves unimplemented
theorem witness_unimplemented : (vector lhuFault 0#32 [] [] []).cfg.lhuMode = .fault ∧
    (syscallState Config.default [(2, 4#32)] [] []).x 2 = 0x00000004#32 ∧
    (syscallState Config.default [(2, 4#32)] [] []).cfg.printStringMode = .fault := by decide
-- JumpToItselfRunsForEver: j 0 at address 0
theorem witness_jumpToItself : FetchesWord (vector Config.default 0x08000000#32 [] [] []) 0x08000000#32 ∧
    decode 0x08000000#32 = .instr (.j 0#26) ∧
    (0#26).setWidth 32 = (vector Config.default 0x08000000#32 [] [] []).pc :=
  ⟨⟨rfl, by decide, by decide, by decide⟩, by decide, by decide⟩
-- MachineInvariantKeptByStep, StopInvariantKeptByStep: a loaded program that runs
theorem witness_inv : addiState.Inv ∧ addiState.StopInv ∧ ∃ t, step addiState = .next t :=
  ⟨⟨by decide, by decide, by decide, by decide, by decide⟩, ⟨fun _ h => (by cases h), fun _ h => (by cases h)⟩, _, rfl⟩
-- MachineInvariantKeptByStep, where register 0 is hardwired
theorem witness_inv_hardwired : (vector hardwired 0x20000005#32 [] [] []).Inv ∧
    ∃ t, step (vector hardwired 0x20000005#32 [] [] []) = .next t :=
  ⟨⟨by decide, by decide, by decide, by decide, by decide⟩, _, rfl⟩
-- EveryReachedStateMeetsBothInvariants: a state one step away
theorem witness_reaches : ∃ s t, State.boot Config.default [0x20040005#32] = some s ∧
    Reaches { s with input := [.noValue] } t ∧ t.pc = 0x00000004#32 :=
  ⟨_, _, rfl, .step (.step rfl) (.here _), by decide⟩

/-- syscall at address 0 with 5 in x[2], j 0 at address 4. -/
def loopBase : State := vector Config.default 0x0000000C#32 [(2, 5#32)] [(4, 0x08#8)] []
/-- A loop of a read-integer that reads 5 again and again. -/
def readLoop (pc : Word) (events : List Event) : State :=
  { loopBase with pc := pc, tp := 0x00000008#32, events := events }

theorem readLoop_fetches (ev : List Event) : FetchesWord (readLoop 0x00000000#32 ev) 0x0000000C#32 ∧
    FetchesWord (readLoop 0x00000004#32 ev) 0x08000000#32 := by
  refine ⟨⟨rfl, by show (0x00000000#32 : Word) ≠ 0x00000008#32; decide, by rfl, ?_⟩,
    ⟨rfl, by show (0x00000004#32 : Word) ≠ 0x00000008#32; decide, by rfl, ?_⟩⟩
  · show loopBase.mem.readWord 0x00000000#32 = _; decide
  · show loopBase.mem.readWord 0x00000004#32 = _; decide

-- the core waits, the host answers, and the step takes the answer
theorem readLoop_read (ev : List Event) :
    Transition (readLoop 0x00000000#32 ev) (readLoop 0x00000004#32 (ev ++ [.readInt 5#32])) := by
  obtain ⟨⟨hr, hp, hb, hw⟩, _⟩ := readLoop_fetches ev
  have hd : decode 0x0000000C#32 = .instr (.syscall 0#20) := by decide
  have h2 : loopBase.x syscallReg = svcReadInt := by decide
  have hregs : (loopBase.setX syscallReg 5#32).regs = loopBase.regs := by decide
  have hstep : ∀ s : State, FetchesWord s 0x0000000C#32 → s.x syscallReg = svcReadInt →
      step s = serviceReadInt (encode (.syscall 0#20)) s.advance := fun s hf hx => by
    rw [step_of_fetches hf, runWord, hd]
    exact service_readInt _ hx
  refine .answered (.value 5#32) ?_ ?_
  · rw [hstep _ ⟨hr, hp, hb, hw⟩ h2, serviceReadInt_blocked _ rfl]
  · rw [hstep ((readLoop 0x00000000#32 ev).answer (.value 5#32)) ⟨hr, hp, hb, hw⟩ h2, serviceReadInt_value (v := 5#32) (rest := []) _ rfl]
    show Host.Outcome.next { readLoop 0x00000004#32 (ev ++ [.readInt 5#32]) with
      regs := (loopBase.setX syscallReg 5#32).regs } = _
    rw [hregs]
    rfl
-- then the jump
theorem readLoop_jump (ev : List Event) : Transition (readLoop 0x00000004#32 ev) (readLoop 0x00000000#32 ev) := by
  have hd : decode 0x08000000#32 = .instr (.j 0#26) := by decide
  have ht : jumpTarget 0#26 = 0x00000000#32 := by decide
  refine .step ?_
  rw [step_of_fetches (readLoop_fetches ev).2, runWord, hd]
  show Host.Outcome.next ((readLoop 0x00000004#32 ev).advance.setPc (jumpTarget 0#26)) = _
  rw [ht]
  rfl

-- 70 R290, RunIsInfiniteOrEndsFinished: the loop never ends while the host answers
theorem witness_readLoop : (readLoop 0x00000000#32 []).run = .running ∧
    ∃ run, run 0 = readLoop 0x00000000#32 [] ∧ InfiniteRun run := by
  refine ⟨rfl, fun n => readLoop (if n % 2 = 0 then 0x00000000#32 else 0x00000004#32)
    (List.replicate ((n + 1) / 2) (.readInt 5#32)), rfl, fun n => ?_⟩
  rcases Nat.mod_two_eq_zero_or_one n with h | h
  · have hr := readLoop_read (List.replicate ((n + 1) / 2) (.readInt 5#32))
    rw [← List.replicate_succ', show (n + 1) / 2 + 1 = (n + 1 + 1) / 2 by omega] at hr
    simpa [h, show (n + 1) % 2 = 1 by omega] using hr
  · have hj := readLoop_jump (List.replicate ((n + 1) / 2) (.readInt 5#32))
    simpa [h, show (n + 1) % 2 = 0 by omega, show (n + 1 + 1) / 2 = (n + 1) / 2 by omega] using hj

-- RunIsInfiniteOrEndsFinished, second clause and the other end of the third
theorem witness_finished : State.reset.halt.finished = true ∧ State.reset.run = .running ∧
    ∃ t, Reaches State.reset t ∧ t.finished = true := ⟨rfl, rfl, _, .step (.step rfl) (.here _), rfl⟩
-- RegisterZeroFollowsTheParameter
theorem witness_registerZero : (State.resetWith hardwired).cfg.r0Hardwired = true ∧
    (State.resetWith Config.default).cfg.r0Hardwired = false := by decide
-- BoundsCheckReadingsAgree: a sum that stays, one that is negative, and the bound on MEM_SIZE
theorem witness_bounds : 0 ≤ (0x00001FFC#32).toInt + ((0x0000#16).signExtend 32).toInt ∧
    (0x00000000#32).toInt + ((0xFFFC#16).signExtend 32).toInt < 0 ∧ 0 < 4 ∧ State.reset.cfg.memSize ≤ 2 ^ 31 - 2 ^ 15 := by
  decide
-- StoreThenLoadReturnsTheWord, StoreWordWritesOrFaults: the last word of memory; the load forms the address another way
theorem witness_storeLoad :
    ((atPc 0#32).x 0 + (0x1FFC#16).signExtend 32).toNat + 4 ≤ (atPc 0#32).cfg.memSize ∧
    (atPc 0#32).x 29 + (0xFFFC#16).signExtend 32 = (atPc 0#32).x 0 + (0x1FFC#16).signExtend 32 := by decide
-- StoreIsSeenByTheNextFetch: sw r1, 16(r0) with an instruction's word in r1, as in program P7
theorem witness_storeFetch : ((atPc 0#32).setX 1 0x2002000A#32).run = .running ∧
    (((atPc 0#32).setX 1 0x2002000A#32).x 0 + (0x0010#16).signExtend 32).toNat + 4 ≤
      ((atPc 0#32).setX 1 0x2002000A#32).cfg.memSize ∧
    ((atPc 0#32).setX 1 0x2002000A#32).x 0 + (0x0010#16).signExtend 32 ≠ ((atPc 0#32).setX 1 0x2002000A#32).tp ∧
    decode (((atPc 0#32).setX 1 0x2002000A#32).x 1) = .instr (.addi 2 0 0x000A#16) := by decide
-- OnlyTheDestinationRegisterChanges, OnlyStoreWordChangesMemory, NextPcIsOneOfTheListed
theorem witness_frame : (∃ t, exec (.addi 4 0 0x0005#16) addiState = .next t) ∧
    (Instr.addi 4 0 0x0005#16).dest ≠ some 5 ∧ (Instr.addi 4 0 0x0005#16).op ≠ .SW ∧
    (∃ t, exec (.syscall 0#20) (syscallState Config.default [] [] []) = .next t) ∧
    (syscallState Config.default [] [] []).x 2 ≠ 0x00000005#32 ∧
    (∃ t, exec (.sw 1 0x0200#16 0) addiState = .next t) := ⟨⟨_, rfl⟩, by decide, by decide, ⟨_, rfl⟩, by decide, ⟨_, rfl⟩⟩
-- OnlySourceRegistersMatter: two states that differ in a register add does not read
theorem witness_sources : AgreeOutsideRegs addiState (addiState.setX 9 0x00000007#32) ∧
    (∀ r ∈ (Instr.add 3 1 2 0#5).sources (addiState.x 2), addiState.x r = (addiState.setX 9 0x00000007#32).x r) ∧
    addiState.x 9 ≠ (addiState.setX 9 0x00000007#32).x 9 ∧ (∃ t, exec (.add 3 1 2 0#5) addiState = .next t) :=
  ⟨⟨rfl, rfl, rfl, rfl, rfl, rfl, rfl⟩, by decide, by decide, _, rfl⟩
-- the statements over a row of the table: a word of each row, and of the two rejected patterns
theorem witness_rowsR : 0x000537C0#32 &&& 0xFC00003F#32 = 0x00000000#32 ∧ 0x00053103#32 &&& 0xFC00003F#32 = 0x00000003#32 ∧
    0x03E0F808#32 &&& 0xFC00003F#32 = 0x00000008#32 ∧ 0x03FFFFCC#32 &&& 0xFC00003F#32 = 0x0000000C#32 ∧
    0x00851820#32 &&& 0xFC00003F#32 = 0x00000020#32 ∧ 0x00221821#32 &&& 0xFC00003F#32 = 0x00000021#32 ∧
    0x00853022#32 &&& 0xFC00003F#32 = 0x00000022#32 ∧ 0x00221823#32 &&& 0xFC00003F#32 = 0x00000023#32 ∧
    0x00221824#32 &&& 0xFC00003F#32 = 0x00000024#32 ∧ 0x00221825#32 &&& 0xFC00003F#32 = 0x00000025#32 ∧
    0x00221827#32 &&& 0xFC00003F#32 = 0x00000027#32 ∧ 0x0022182A#32 &&& 0xFC00003F#32 = 0x0000002A#32 ∧
    0x0022182B#32 &&& 0xFC00003F#32 = 0x0000002B#32 := by decide
theorem witness_rowsIJ : 0x10220040#32 &&& 0xFC000000#32 = 0x10000000#32 ∧ 0x15200008#32 &&& 0xFC000000#32 = 0x14000000#32 ∧
    0x20040005#32 &&& 0xFC000000#32 = 0x20000000#32 ∧ 0x2822FFFF#32 &&& 0xFC000000#32 = 0x28000000#32 ∧
    0x2C220001#32 &&& 0xFC000000#32 = 0x2C000000#32 ∧ 0x30228000#32 &&& 0xFC000000#32 = 0x30000000#32 ∧
    0x34218001#32 &&& 0xFC000000#32 = 0x34000000#32 ∧ 0x3C011234#32 &&& 0xFC000000#32 = 0x3C000000#32 ∧
    0x8C220001#32 &&& 0xFC000000#32 = 0x8C000000#32 ∧ 0x940B0102#32 &&& 0xFC000000#32 = 0x94000000#32 ∧
    0xAFA80000#32 &&& 0xFC000000#32 = 0xAC000000#32 ∧ 0x08002000#32 &&& 0xFC000000#32 = 0x08000000#32 ∧
    0x0C000010#32 &&& 0xFC000000#32 = 0x0C000000#32 := by decide
-- SetLessThanWritesOneOrZero, second clause, with bit 31 set
theorem witness_sameSign : ((addiState.setX 1 0x80000000#32).setX 2 0xFFFFFFFF#32 |>.x 1).msb =
    ((addiState.setX 1 0x80000000#32).setX 2 0xFFFFFFFF#32 |>.x 2).msb := by decide
-- the jumps and branches: a target at TP, and one where the fourth byte is past the end of memory
theorem witness_target : (atPc 0x00000004#32).run = .running ∧ (atPc 0x00000004#32).pc = (atPc 0x00000004#32).tp ∧
    (atPc 0x00001FFD#32).pc ≠ (atPc 0x00001FFD#32).tp := by decide
-- BranchesGoToAbsoluteTarget: the targets on both sides of 0x8000, and vector B5's second step
theorem witness_branch : (0x7FFF#16).toNat < 0x8000 ∧ 0x8000 ≤ (0x8000#16).toNat ∧ (atPc 0xFFFF8000#32).Inv ∧
    (atPc 0xFFFF8000#32).run = .running ∧ (atPc 0xFFFF8000#32).pc = BitVec.ofInt 32 (0x8000#16).toInt :=
  ⟨by decide, by decide, ⟨by decide, by decide, by decide, by decide, by decide⟩, rfl, by decide⟩
-- LoadWordReadsOrFaults, StoreWordWritesOrFaults: 0x1FFC is the last word, 0x1FFD faults
theorem witness_word : 0x00001FFC#32 = (atPc 0#32).x 0 + (0x1FFC#16).signExtend 32 ∧
    (0x00001FFC#32).toNat + 4 ≤ (atPc 0#32).cfg.memSize ∧
    0x00001FFD#32 = (atPc 0#32).x 0 + (0x1FFD#16).signExtend 32 ∧ ¬ ((0x00001FFD#32).toNat + 4 ≤ (atPc 0#32).cfg.memSize) := by
  decide
-- LoadHalfwordReadsOrFaults: 0x1FFE is the last halfword, 0x1FFF faults
theorem witness_half : (atPc 0#32).cfg.lhuMode = .implement ∧
    0x00001FFE#32 = (atPc 0#32).x 0 + (0x1FFE#16).signExtend 32 ∧ (0x00001FFE#32).toNat + 2 ≤ (atPc 0#32).cfg.memSize ∧
    0x00001FFF#32 = (atPc 0#32).x 0 + (0x1FFF#16).signExtend 32 ∧ ¬ ((0x00001FFF#32).toNat + 2 ≤ (atPc 0#32).cfg.memSize) := by
  decide
-- SyscallSelectsServiceByWholeX2, PrintIntEmitsSignedValue, ExitSetsPcToTpAndNextStepHalts
theorem witness_services : (syscallState Config.default [(2, 1#32)] [] []).x 2 = 0x00000001#32 ∧
    (syscallState Config.default [(2, 0xA#32)] [] []).x 2 = 0x0000000A#32 ∧
    (syscallState Config.default [(2, 0xA#32)] [] []).run = .running ∧
    (∃ t, exec (.syscall 0#20) (syscallState Config.default [(2, 1#32)] [] []) = .next t) :=
  ⟨by decide, by decide, by decide, _, rfl⟩
-- PrintStringEmitsOrFaults: "Hi" (Y5), and the empty string in the last byte of memory
theorem witness_string : (syscallState printing [(2, 4#32), (4, 0x200#32)] [(0x200, 0x48#8), (0x201, 0x69#8)] []).x 2 =
      0x00000004#32 ∧
    (syscallState printing [(2, 4#32), (4, 0x200#32)] [(0x200, 0x48#8), (0x201, 0x69#8)] []).cfg.printStringMode =
      .implement ∧
    (∀ k, k < 2 → (syscallState printing [(2, 4#32), (4, 0x200#32)] [(0x200, 0x48#8), (0x201, 0x69#8)] []).mem.readByte
      (0x200 + k) ≠ 0x00#8) ∧
    (syscallState printing [(2, 4#32), (4, 0x200#32)] [(0x200, 0x48#8), (0x201, 0x69#8)] []).mem.readByte 0x202 = 0x00#8 ∧
    (syscallState printing [(2, 4#32), (4, 0x1FFF#32)] [] []).mem.readByte 0x1FFF = 0x00#8 := by decide
-- PrintStringEmitsOrFaults: no NUL before the end of memory (Y7), and an address out of memory
theorem witness_string_end : (∀ a, 0x1FFE ≤ a → a < 0x2000 →
      (syscallState printing [(2, 4#32), (4, 0x1FFE#32)] [(0x1FFE, 0x41#8), (0x1FFF, 0x42#8)] []).mem.readByte a ≠ 0x00#8) ∧
    (syscallState printing [(2, 4#32), (4, 0x2001#32)] [] []).cfg.memSize < (0x2001#32).toNat := by
  refine ⟨fun a h h' => ?_, by decide⟩
  obtain rfl | rfl : a = 0x1FFE ∨ a = 0x1FFF := by omega
  all_goals decide
-- ReadIntTakesTheHostsAnswer: a value, no value, no answer
theorem witness_readInt : (syscallState Config.default [(2, 5#32)] [] [.value 42#32]).x 2 = 0x00000005#32 ∧
    (syscallState Config.default [(2, 5#32)] [] [.value 42#32]).input = .value 42#32 :: [] ∧
    (syscallState Config.default [(2, 5#32)] [] [.noValue]).input = .noValue :: [] ∧
    (syscallState Config.default [(2, 5#32)] [] []).input = [] := by decide
-- UnknownServiceIsAnomalyOrFault: service 0, and the number 0x0000010A, lax and strict
theorem witness_unknownService :
    (syscallState Config.default [] [] []).x 2 ∉ [0x00000001#32, 0x00000004#32, 0x00000005#32, 0x0000000A#32] ∧
    (syscallState Config.default [] [] []).cfg.strictDecode = false ∧
    (syscallState strict [(2, 0x10A#32)] [] []).x 2 ∉ [0x00000001#32, 0x00000004#32, 0x00000005#32, 0x0000000A#32] ∧
    (syscallState strict [(2, 0x10A#32)] [] []).cfg.strictDecode = true := by decide

end Sys2Proof.Tests
end

section
/-!
PROOFS. The scope's obligations (spec/00_scope.md R6): the machine invariant along a step, and which programs start.
-/
namespace Sys2Proof.Machine

/-! ### The machine invariant under each update

`State.Inv` reads the configuration, the registers, TP and memory only, so an update of another field leaves it as it is. -/

@[simp] theorem setPc_inv (s : State) (t : Word) : (s.setPc t).Inv ↔ s.Inv := Iff.rfl
@[simp] theorem advance_inv (s : State) : s.advance.Inv ↔ s.Inv := Iff.rfl
@[simp] theorem emit_inv (s : State) (e : Event) : (s.emit e).Inv ↔ s.Inv := Iff.rfl
@[simp] theorem halt_inv (s : State) : s.halt.Inv ↔ s.Inv := Iff.rfl
@[simp] theorem raise_inv (s : State) (rec : FaultRecord) : (s.raise rec).Inv ↔ s.Inv := Iff.rfl
@[simp] theorem withInput_inv (s : State) (l : List HostAnswer) : ({ s with input := l } : State).Inv ↔ s.Inv := Iff.rfl

/-- A register write keeps the invariant: it never reaches a hardwired register 0 (10 R21). -/
theorem setX_keeps_inv {s : State} (h : s.Inv) (i : Reg) (v : Word) : (s.setX i v).Inv := by
  obtain ⟨hcfg, hwf, hbelow, htp, hzero⟩ := h
  simp only [State.Inv, setX_cfg, setX_mem, setX_tp]
  exact ⟨hcfg, hwf, hbelow, htp, setX_keeps_zero hzero i v⟩

/-- A word store in bounds keeps the invariant: it stays canonical and lists no address at or above MEM_SIZE (20 R51). -/
theorem writeWord_keeps_inv {s : State} (h : s.Inv) {ea : Word} (hb : s.inBounds ea 4 = true) (v : Word) :
    ({ s with mem := s.mem.writeWord ea v } : State).Inv := by
  obtain ⟨hcfg, hwf, hbelow, htp, hzero⟩ := h
  exact ⟨hcfg, wf_write hwf _ 4 v, below_write hbelow 4 v ((inBounds_iff s ea 4).mp hb), htp, hzero⟩

/-- Whatever an execute phase does keeps the invariant. -/
theorem effect_keeps_inv {s t : State} (he : Effect s t) (h : s.Inv) : t.Inv := by
  cases he with
  | stay => exact h
  | reg rd v => exact setX_keeps_inv h rd v
  | jump => simpa using h
  | link rd v => simpa using setX_keeps_inv h rd v
  | store ea v hb => exact writeWord_keeps_inv h hb v
  | event => simpa using h
  | read v rest => simpa using setX_keeps_inv ((withInput_inv s rest).mpr h) syscallReg v
  | fault => simpa using h

/-- Settles O24: the halt and the fetch fault leave all that the invariant reads, and so does the advance before an execute
phase, which has one of the eight effects. -/
theorem machineInvariantKeptByStep : Obligations.MachineInvariantKeptByStep := by
  intro s t hs hstep
  obtain ⟨-, ⟨-, rfl⟩ | ⟨-, -, rfl⟩ | ⟨-, -, -, heffect⟩⟩ := step_cases hstep
  · exact (halt_inv s).mpr hs
  · exact (raise_inv s _).mpr hs
  · exact effect_keeps_inv heffect ((advance_inv s).mpr hs)

/-! ### Which programs start -/

/-- The loader gives a state exactly where the program fits (70 R281, 92 D21). -/
theorem boot_starts_iff (c : Config) (ws : List Word) :
    (∃ s, State.boot c ws = some s) ↔ 4 * ws.length ≤ c.memSize := by
  simp [State.boot]

/-- A running core at TP halts (70 R284). -/
theorem step_halts_at_tp {s : State} (hr : s.run = .running) (hp : s.pc = s.tp) : step s = .next s.halt := by
  simp [step, sequencerStep, hr, hp]

/-- Settles O29: the bound is the loader's own check, and the empty program leaves pc = TP = 0. -/
theorem resetIsTheEmptyProgram : Obligations.ResetIsTheEmptyProgram :=
  ⟨boot_starts_iff, rfl, rfl, resetWith_x Config.default 29, rfl, State.reset.halt, step_halts_at_tp rfl rfl, rfl, rfl, rfl⟩

end Sys2Proof.Machine
end

section
/-!
PROOFS. The state's obligations (spec/10_state.md): register 0 (R21), TP and the configuration (R27), the run state and the
events (R28, R32), the registers an instruction reads and writes (R22), and the next pc (R26).
-/
namespace Sys2Proof.Machine

/-! ### Register 0 -/

theorem x_zero_of_hardwired {s : State} (h : s.cfg.r0Hardwired = true) : s.x 0 = 0x00000000#32 := by
  simp [State.x, h]

theorem setX_zero_of_hardwired {s : State} (h : s.cfg.r0Hardwired = true) (v : Word) : s.setX 0 v = s := by
  simp [State.setX, h]

/-- Settles O30: the parameter decides both the read and the write of register 0, and addi is one write. -/
theorem registerZeroFollowsTheParameter : Obligations.RegisterZeroFollowsTheParameter := by
  refine ⟨fun s h => ⟨x_zero_of_hardwired h, setX_zero_of_hardwired h⟩, fun s v h => ?_, fun s imm h => ?_⟩
  · rw [setX_x_self, if_neg (by simp [h])]
  · exact congrArg Host.Outcome.next (setX_zero_of_hardwired h _)

/-! ### TP and the configuration -/

/-- No effect writes TP or the configuration. -/
theorem effect_keeps_tp_cfg {s t : State} (he : Effect s t) : t.tp = s.tp ∧ t.cfg = s.cfg := by
  cases he <;> simp

/-- The loader's TP and configuration (70 R281): 4N is at most MEM_SIZE, so it fits the 32 bits of TP. -/
theorem boot_tp_cfg {c : Config} {ws : List Word} {s : State} (hc : c.WellFormed) (h : State.boot c ws = some s) :
    s.tp.toNat = 4 * ws.length ∧ s.tp.toNat ≤ c.memSize ∧ s.cfg = c := by
  have hfit : 4 * ws.length ≤ c.memSize := (boot_starts_iff c ws).mp ⟨s, h⟩
  obtain ⟨-, hmem⟩ := hc
  have htp : (BitVec.ofNat 32 (4 * ws.length)).toNat = 4 * ws.length := by
    rw [BitVec.toNat_ofNat, Nat.mod_eq_of_lt (by omega)]
  simp only [State.boot, if_pos hfit, Option.some.injEq] at h
  subst h
  exact ⟨htp, htp.symm ▸ hfit, rfl⟩

/-- Settles O19: the loader's check bounds TP; a halt, a fetch fault and every effect leave TP and the configuration. -/
theorem textPointerAndConfigurationNeverWritten : Obligations.TextPointerAndConfigurationNeverWritten := by
  refine ⟨fun c ws s => boot_tp_cfg, fun s t h => ?_, fun i s t h => effect_keeps_tp_cfg (exec_effect h)⟩
  obtain ⟨-, ⟨-, rfl⟩ | ⟨-, -, rfl⟩ | ⟨-, -, -, heffect⟩⟩ := step_cases h
  · exact ⟨rfl, rfl⟩
  · exact ⟨rfl, rfl⟩
  · exact effect_keeps_tp_cfg (s := s.advance) heffect

/-! ### The run state and the events -/

/-- Settles O13: a step has a next state from a running core only. -/
theorem stoppedCoreHasNoStep : Obligations.StoppedCoreHasNoStep := by
  intro s hs t h
  obtain ⟨hrun, -⟩ := step_cases h
  exact hs hrun

/-- A core that was running, with these events emitted, has done one thing to them: nothing, one event that is no stop, or
one Stop, with the run state and the pc that go with it (10 R32, 60 R247, 70 R284). -/
inductive Logged (before : List Event) (t : State) : Prop where
  | quiet (hrun : t.run = .running) (hev : t.events = before)
  | event (e : Event) (hrun : t.run = .running) (hev : t.events = before ++ [e]) (hw : e.WellFormed) (hs : e.isStop = false)
  | halted (hrun : t.run = .halted) (hev : t.events = before ++ [.stop .halted]) (hpc : t.pc = t.tp)
  | faulted (rec : FaultRecord) (hrun : t.run = .faulted rec) (hev : t.events = before ++ [.stop (.faulted rec)])
      (hpc : t.pc = rec.faultPc) (hw : rec.WellFormed)

theorem effect_logged {s t : State} (hr : s.run = .running) (he : Effect s t) : Logged s.events t := by
  cases he with
  | stay => exact .quiet hr rfl
  | reg rd v => exact .quiet ((setX_run s rd v).trans hr) (setX_events s rd v)
  | jump => exact .quiet hr rfl
  | link rd v => exact .quiet ((setX_run s rd v).trans hr) (setX_events s rd v)
  | store => exact .quiet hr rfl
  | event e hw hs => exact .event e hr rfl hw hs
  | read v => exact .event (.readInt v) (by simpa using hr) (by simp) trivial rfl
  | fault rec _ hw => exact .faulted rec rfl rfl rfl hw

theorem step_logged {s t : State} (h : step s = .next t) : s.run = .running ∧ Logged s.events t := by
  obtain ⟨hrun, hcase⟩ := step_cases h
  refine ⟨hrun, ?_⟩
  obtain ⟨hpc, rfl⟩ | ⟨-, -, rfl⟩ | ⟨-, -, -, heffect⟩ := hcase
  · exact .halted rfl rfl hpc
  · exact .faulted _ rfl rfl rfl (by simp [memoryFault, FaultRecord.WellFormed])
  · exact effect_logged (s := s.advance) hrun heffect

/-- Settles O18: what a step logs is nothing or one event, and a Stop it logs is Halted or Faulted. -/
theorem stepAppendsAtMostOneEvent : Obligations.StepAppendsAtMostOneEvent := by
  intro s t h
  obtain ⟨-, hlog⟩ := step_logged h
  cases hlog with
  | quiet _ hev => exact .inl hev
  | event e _ hev hw => exact .inr ⟨e, hev, hw⟩
  | halted _ hev => exact .inr ⟨_, hev, RunState.noConfusion⟩
  | faulted _ _ hev => exact .inr ⟨_, hev, RunState.noConfusion⟩

/-- For a running core the stop invariant speaks of its events alone. -/
theorem stopInv_running_iff {s : State} (h : s.run = .running) :
    s.StopInv ↔ (∀ e ∈ s.events, e.WellFormed) ∧ ∀ e ∈ s.events, e.isStop = false := by
  simp [State.StopInv, h]

/-- Settles O25: only a running core steps, so no Stop stands before, and each of the four things a step logs fits. -/
theorem stopInvariantKeptByStep : Obligations.StopInvariantKeptByStep := by
  intro s t hs h
  obtain ⟨hrun, hlog⟩ := step_logged h
  obtain ⟨hwf, hstop⟩ := (stopInv_running_iff hrun).mp hs
  have append {e : Event} (hev : t.events = s.events ++ [e]) (he : e.WellFormed) : ∀ e ∈ t.events, e.WellFormed :=
    hev ▸ List.forall_mem_append.mpr ⟨hwf, List.forall_mem_singleton.mpr he⟩
  cases hlog with
  | quiet hrun' hev => exact (stopInv_running_iff hrun').mpr (hev ▸ ⟨hwf, hstop⟩)
  | event e hrun' hev hw hne =>
    exact (stopInv_running_iff hrun').mpr
      ⟨append hev hw, hev ▸ List.forall_mem_append.mpr ⟨hstop, List.forall_mem_singleton.mpr hne⟩⟩
  | halted hrun' hev hpc =>
    refine ⟨append hev RunState.noConfusion, ?_⟩
    rw [hrun']
    exact ⟨s.events, hev, hstop, hpc⟩
  | faulted rec hrun' hev hpc hw =>
    refine ⟨append hev RunState.noConfusion, ?_⟩
    rw [hrun']
    exact ⟨s.events, hev, hstop, hpc, hw⟩

/-- Settles O26: the reset state's memory and events are empty, and its registers and TP are given values. -/
theorem resetMeetsBothInvariants : Obligations.ResetMeetsBothInvariants :=
  ⟨⟨by decide, reset_mem_wf, List.forall_mem_nil _, by decide, fun _ => rfl⟩,
    (stopInv_running_iff rfl).mpr ⟨List.forall_mem_nil _, List.forall_mem_nil _⟩⟩

end Sys2Proof.Machine
end

section
/-!
PROOFS. What an execute phase reads and writes: TP (spec/10_state.md R27), the registers (R22) and the next pc (R26). An
execute phase decides on one action from the inputs it reads; the action is then the same change in every state that gives
these inputs.
-/
namespace Sys2Proof

/-- The instruction writes this register: its destination of 10 R22's table, and for syscall with service 5 only. -/
def Instr.Writes (i : Instr) (service : Word) (r : Reg) : Prop :=
  i.dest = some r ∧ (i.op = .SYSCALL → service = svcReadInt)

end Sys2Proof

namespace Sys2Proof.Machine

/-! ### Actions -/

/-- The change an execute phase decides on. -/
inductive Action where
  | write (rd : Reg) (v : Word)
  | goto (target : Word)
  | link (rd : Reg) (v target : Word)
  | store (m : Memory)
  | emit (e : Event)
  | read (v : Word) (rest : List HostAnswer)
  | raise (rec : FaultRecord)

def Action.apply (s : State) : Action → State
  | .write rd v => s.setX rd v
  | .goto target => s.setPc target
  | .link rd v target => (s.setX rd v).setPc target
  | .store m => { s with mem := m }
  | .emit e => s.emit e
  | .read v rest => (({ s with input := rest } : State).setX syscallReg v).emit (.readInt v)
  | .raise rec => s.raise rec

/-- The action writes only what 10 R22 lists for the instruction, and leaves `pc` at an address 10 R26 lists or at `pc_cur`. -/
def Action.Fits (i : Instr) (s : State) : Action → Prop
  | .write rd _ => i.Writes (s.x syscallReg) rd ∧ s.pc ∈ i.nextPcs s
  | .goto target => target ∈ i.nextPcs s
  | .link rd _ target => i.Writes (s.x syscallReg) rd ∧ target ∈ i.nextPcs s
  | .store _ => s.pc ∈ i.nextPcs s
  | .emit _ => s.pc ∈ i.nextPcs s
  | .read _ _ => i.Writes (s.x syscallReg) syscallReg ∧ s.pc ∈ i.nextPcs s
  | .raise rec => rec.faultPc = s.pcCur

/-- A register the instruction does not write reads as before. -/
theorem apply_x_of_not_writes {i : Instr} {s : State} {a : Action} (hf : a.Fits i s) {r : Reg}
    (hr : ¬ i.Writes (s.x syscallReg) r) : (a.apply s).x r = s.x r := by
  cases a with
  | write rd v => exact setX_x_other s v fun h => hr (h ▸ hf.1)
  | goto => rfl
  | link rd v => exact setX_x_other s v fun h => hr (h ▸ hf.1)
  | store => rfl
  | emit => rfl
  | read v => exact setX_x_other _ v fun h => hr (h ▸ hf.1)
  | raise => rfl

/-- After an action `pc` is an address 10 R26 lists, or `pc_cur` on a fault. -/
theorem apply_pc {i : Instr} {s : State} {a : Action} (hf : a.Fits i s) :
    (a.apply s).pc ∈ i.nextPcs s ∨ ((a.apply s).pc = s.pc - 4#32 ∧ ∃ rec, (a.apply s).run = .faulted rec) := by
  cases a with
  | write rd v => exact .inl ((setX_pc s rd v).symm ▸ hf.2)
  | goto => exact .inl hf
  | link => exact .inl hf.2
  | store => exact .inl hf
  | emit => exact .inl hf
  | read v rest => exact .inl ((setX_pc { s with input := rest } syscallReg v).symm ▸ hf.2)
  | raise rec => exact .inr ⟨hf, rec, rfl⟩

/-! ### One action in two states -/

/-- A write leaves the same value in the register in both states, and the other registers unchanged. -/
theorem setX_same_or_unchanged {s₁ s₂ : State} (hc : s₂.cfg = s₁.cfg) (i r : Reg) (v : Word) :
    (s₁.setX i v).x r = (s₂.setX i v).x r ∨ ((s₁.setX i v).x r = s₁.x r ∧ (s₂.setX i v).x r = s₂.x r) := by
  by_cases h : r = i
  · subst h
    exact .inl (by rw [setX_x_self, setX_x_self, hc])
  · exact .inr ⟨setX_x_other s₁ v h, setX_x_other s₂ v h⟩

theorem apply_same_or_unchanged {s₁ s₂ : State} (hc : s₂.cfg = s₁.cfg) (a : Action) (r : Reg) :
    (a.apply s₁).x r = (a.apply s₂).x r ∨ ((a.apply s₁).x r = s₁.x r ∧ (a.apply s₂).x r = s₂.x r) := by
  cases a with
  | write rd v => exact setX_same_or_unchanged hc rd r v
  | goto => exact .inr ⟨rfl, rfl⟩
  | link rd v => exact setX_same_or_unchanged hc rd r v
  | store => exact .inr ⟨rfl, rfl⟩
  | emit => exact .inr ⟨rfl, rfl⟩
  | read v rest =>
    exact setX_same_or_unchanged (s₁ := { s₁ with input := rest }) (s₂ := { s₂ with input := rest }) hc syscallReg r v
  | raise => exact .inr ⟨rfl, rfl⟩

/-- An action changes what lies outside the registers in the same way. -/
theorem apply_agreeOutsideRegs {s₁ s₂ : State} (h : AgreeOutsideRegs s₁ s₂) (a : Action) :
    AgreeOutsideRegs (a.apply s₁) (a.apply s₂) := by
  obtain ⟨hcfg, hpc, htp, hmem, hrun, hev, hin⟩ := h
  cases a <;> simp [Action.apply, AgreeOutsideRegs, *]

theorem setX_withTp (s : State) (tp : Word) (i : Reg) (v : Word) :
    ({ s with tp := tp } : State).setX i v = { s.setX i v with tp := tp } := by
  unfold State.setX
  split <;> rfl

/-- No action reads or writes TP. -/
theorem apply_withTp (s : State) (tp : Word) (a : Action) :
    a.apply { s with tp := tp } = { a.apply s with tp := tp } := by
  cases a with
  | write rd v => exact setX_withTp s tp rd v
  | goto => rfl
  | link rd v target => exact congrArg (State.setPc · target) (setX_withTp s tp rd v)
  | store => rfl
  | emit => rfl
  | read v rest => exact congrArg (State.emit · (.readInt v)) (setX_withTp { s with input := rest } tp syscallReg v)
  | raise => rfl

/-! ### An execute phase's action depends on its inputs alone -/

/-- Both states are the same but for registers, TP, run state and events. -/
structure SameInputs (s₁ s₂ : State) : Prop where
  cfg : s₂.cfg = s₁.cfg
  pc : s₂.pc = s₁.pc
  mem : s₂.mem = s₁.mem
  input : s₂.input = s₁.input

/-- Two results come from one action that fits the instruction, or both wait for the host. -/
def Alike (i : Instr) (s₁ s₂ : State) (r₁ r₂ : Result) : Prop :=
  (∃ a : Action, a.Fits i s₁ ∧ r₁ = .next (a.apply s₁) ∧ r₂ = .next (a.apply s₂)) ∨
    (r₁ = .fault .awaitingHost ∧ r₂ = .fault .awaitingHost)

section
variable {i : Instr} {s₁ s₂ : State} {word : Word}

/-- An action that fits, taken in both states. -/
theorem Alike.act {a : Action} (hf : a.Fits i s₁) : Alike i s₁ s₂ (.next (a.apply s₁)) (.next (a.apply s₂)) :=
  .inl ⟨a, hf, rfl, rfl⟩

/-- A next state in the first state is an action's, and the second state gets the same action. -/
theorem Alike.next {r₁ r₂ : Result} {t : State} (h : Alike i s₁ s₂ r₁ r₂) (ht : r₁ = .next t) :
    ∃ a : Action, a.Fits i s₁ ∧ t = a.apply s₁ ∧ r₂ = .next (a.apply s₂) := by
  obtain ⟨a, hfit, h₁, h₂⟩ | ⟨h₁, -⟩ := h
  · exact ⟨a, hfit, Host.Outcome.next.inj (ht.symm.trans h₁), h₂⟩
  · cases ht.symm.trans h₁

/-- A stuck state reported in the first state is reported in the second. -/
theorem Alike.fault {r₁ r₂ : Result} {f : Fault} (h : Alike i s₁ s₂ r₁ r₂) (hf : r₁ = .fault f) : r₂ = .fault f := by
  obtain ⟨a, -, h₁, -⟩ | ⟨h₁, h₂⟩ := h
  · cases hf.symm.trans h₁
  · exact h₂.trans (h₁.symm.trans hf)

theorem alike_regReg {f : Word → Word → Word} {rd rs rt : Reg} (hf : ∀ v, (Action.write rd v).Fits i s₁)
    (hs : s₁.x rs = s₂.x rs) (ht : s₁.x rt = s₂.x rt) : Alike i s₁ s₂ (regReg f rd rs rt s₁) (regReg f rd rs rt s₂) := by
  rw [regReg_eq, regReg_eq, ← hs, ← ht]
  exact .act (hf _)

theorem alike_regImm {f : Word → Word → Word} {rt rs : Reg} {imm : BitVec 16} (hf : ∀ v, (Action.write rt v).Fits i s₁)
    (hs : s₁.x rs = s₂.x rs) : Alike i s₁ s₂ (regImm f rt rs imm s₁) (regImm f rt rs imm s₂) := by
  rw [regImm_eq, regImm_eq, ← hs]
  exact .act (hf _)

theorem alike_shiftReg {f : Word → Nat → Word} {rd rt : Reg} {n : Nat} (hf : ∀ v, (Action.write rd v).Fits i s₁)
    (ht : s₁.x rt = s₂.x rt) : Alike i s₁ s₂ (shiftReg f rd rt n s₁) (shiftReg f rd rt n s₂) := by
  rw [shiftReg_eq, shiftReg_eq, ← ht]
  exact .act (hf _)

theorem alike_jumpIf {taken : Bool} {target : Word} (hpc : s₂.pc = s₁.pc)
    (hf : (if taken = true then target else s₁.pc) ∈ i.nextPcs s₁) :
    Alike i s₁ s₂ (jumpIf taken target s₁) (jumpIf taken target s₂) := by
  have hjump (s : State) : jumpIf taken target s = .next (s.setPc (if taken = true then target else s.pc)) := by
    cases taken <;> rfl
  rw [hjump, hjump, hpc]
  exact .act (a := .goto _) hf

/-- The load_store_unit's verdict and data depend on the address, the memory and MEM_SIZE, and on the data port for a store
alone (20 R65). -/
theorem loadStoreUnit_congr {op : LsuOp} {base offset d₁ d₂ : Word} (h : SameInputs s₁ s₂) (hd : op = .SW → d₁ = d₂) :
    loadStoreUnit op base offset d₁ s₁ = loadStoreUnit op base offset d₂ s₂ := by
  cases op <;> simp [loadStoreUnit, inBounds_congr h.cfg, h.mem, hd]

/-- A store returns no load data (20 R65). -/
theorem ne_SW_of_ldata {op : LsuOp} {base offset d v : Word} (h : loadStoreUnit op base offset d s₁ = .ldata v) :
    op ≠ .SW := by
  rintro rfl
  cases hb : s₁.inBounds (base + offset) 4 with
  | true => rw [loadStoreUnit_SW hb] at h; cases h
  | false => rw [loadStoreUnit_fault hb] at h; cases h

theorem pcCur_congr (hpc : s₂.pc = s₁.pc) : s₂.pcCur = s₁.pcCur := congrArg (· - 4#32) hpc

theorem alike_accessMemory {op : LsuOp} {rt rs : Reg} {imm : BitVec 16} (h : SameInputs s₁ s₂)
    (hs : s₁.x rs = s₂.x rs) (ht : op = .SW → s₁.x rt = s₂.x rt) (hpc : s₁.pc ∈ i.nextPcs s₁)
    (hw : op ≠ .SW → i.Writes (s₁.x syscallReg) rt) :
    Alike i s₁ s₂ (accessMemory op word rt imm rs s₁) (accessMemory op word rt imm rs s₂) := by
  unfold accessMemory
  rw [portA_eq, portA_eq, portB_eq, portB_eq, ← hs, ← loadStoreUnit_congr h ht]
  cases hu : loadStoreUnit op (s₁.x rs) (simm imm) (s₁.x rt) s₁ with
  | fault kind ea n =>
    simp only [finishAccess, pcCur_congr h.pc]
    exact .act (a := .raise _) rfl
  | ldata v => exact .act (a := .write rt v) ⟨hw (ne_SW_of_ldata hu), hpc⟩
  | stored m => exact .act (a := .store m) hpc

theorem nextPcs_syscall (ign : BitVec 20) (s : State) :
    (Instr.syscall ign).nextPcs s = if s.x syscallReg = svcExit then [s.tp] else [s.pc] := rfl

theorem sources_syscall (ign : BitVec 20) (service : Word) : (Instr.syscall ign).sources service =
    if service = svcPrintInt ∨ service = svcPrintString then [syscallReg, argReg] else [syscallReg] := rfl

/-- Every service but exit leaves `pc` as it is. -/
theorem pc_mem_nextPcs_syscall {ign : BitVec 20} (h : s₁.x syscallReg ≠ svcExit) :
    s₁.pc ∈ (Instr.syscall ign).nextPcs s₁ := by
  rw [nextPcs_syscall, if_neg h]
  exact List.mem_singleton_self _

theorem alike_printString (h : SameInputs s₁ s₂) (h2 : s₁.x syscallReg = s₂.x syscallReg)
    (h4 : s₁.x argReg = s₂.x argReg) (hpc : s₁.pc ∈ i.nextPcs s₁) :
    Alike i s₁ s₂ (servicePrintString word s₁) (servicePrintString word s₂) := by
  simp only [servicePrintString, portA_eq, portB_eq, h.cfg, h.mem, ← h2, ← h4, pcCur_congr h.pc]
  split
  · exact .act (a := .raise _) rfl
  · split
    · exact .act (a := .emit _) hpc
    · exact .act (a := .raise _) rfl

theorem alike_readInt (h : SameInputs s₁ s₂) (hw : i.Writes (s₁.x syscallReg) syscallReg) (hpc : s₁.pc ∈ i.nextPcs s₁) :
    Alike i s₁ s₂ (serviceReadInt word s₁) (serviceReadInt word s₂) := by
  cases hi : s₁.input with
  | nil => exact .inr ⟨serviceReadInt_blocked word hi, serviceReadInt_blocked word (h.input.trans hi)⟩
  | cons answer rest =>
    cases answer with
    | value v =>
      rw [serviceReadInt_value word hi, serviceReadInt_value word (h.input.trans hi)]
      exact .act (a := .read v rest) ⟨hw, hpc⟩
    | noValue =>
      rw [serviceReadInt_noValue word hi, serviceReadInt_noValue word (h.input.trans hi), pcCur_congr h.pc]
      exact .act (a := .raise _) rfl

theorem alike_anomaly {k : AnomalyKind} {v : Option Word} (h : SameInputs s₁ s₂) (hpc : s₁.pc ∈ i.nextPcs s₁) :
    Alike i s₁ s₂ (.next (s₁.anomaly k word v)) (.next (s₂.anomaly k word v)) := by
  simp only [State.anomaly, h.cfg, pcCur_congr h.pc]
  split
  · exact .act (a := .raise _) rfl
  · exact .act (a := .emit _) hpc

/-- A syscall's action depends on `x[2]`, on `x[4]` for services 1 and 4, and on TP for service 10. -/
theorem alike_syscallService {ign : BitVec 20} (h : SameInputs s₁ s₂) (h2 : s₁.x syscallReg = s₂.x syscallReg)
    (h4 : s₁.x syscallReg = svcPrintInt ∨ s₁.x syscallReg = svcPrintString → s₁.x argReg = s₂.x argReg)
    (htp : s₁.x syscallReg = svcExit → s₂.tp = s₁.tp) :
    Alike (.syscall ign) s₁ s₂ (syscallService word s₁) (syscallService word s₂) := by
  rcases service_cases (s₁.x syscallReg) with hs | hs | hs | hs | ⟨hs1, hs4, hs5, hs10⟩
  · rw [service_printInt word hs, service_printInt word (h2 ▸ hs), ← h4 (.inl hs)]
    exact .act (a := .emit _) (pc_mem_nextPcs_syscall (by rw [hs]; decide))
  · rw [service_printString word hs, service_printString word (h2 ▸ hs)]
    exact alike_printString h h2 (h4 (.inr hs)) (pc_mem_nextPcs_syscall (by rw [hs]; decide))
  · rw [service_readInt word hs, service_readInt word (h2 ▸ hs)]
    exact alike_readInt h ⟨rfl, fun _ => hs⟩ (pc_mem_nextPcs_syscall (by rw [hs]; decide))
  · rw [service_exit word hs, service_exit word (h2 ▸ hs), htp hs]
    refine .act (a := .goto s₁.tp) ?_
    rw [Action.Fits, nextPcs_syscall, if_pos hs]
    exact List.mem_singleton_self _
  · rw [service_unknown word hs1 hs4 hs5 hs10,
      service_unknown word (h2 ▸ hs1) (h2 ▸ hs4) (h2 ▸ hs5) (h2 ▸ hs10), ← h2]
    exact alike_anomaly h (pc_mem_nextPcs_syscall hs10)

end

/-- What an execute phase does depends on no register but its sources (10 R22), and on TP for service 10 alone (10 R27). -/
theorem exec_alike (i : Instr) {s₁ s₂ : State} (h : SameInputs s₁ s₂)
    (hsrc : ∀ r ∈ i.sources (s₁.x syscallReg), s₁.x r = s₂.x r)
    (htp : i.op ≠ .SYSCALL ∨ s₁.x syscallReg ≠ svcExit ∨ s₂.tp = s₁.tp) :
    Alike i s₁ s₂ (exec i s₁) (exec i s₂) := by
  have hpc := h.pc
  cases i with
  | sll rd rt | sra rd rt =>
    exact alike_shiftReg (fun _ => ⟨⟨rfl, nofun⟩, List.mem_singleton_self _⟩) (hsrc rt (by simp [Instr.sources]))
  | add rd rs rt | addu rd rs rt | sub rd rs rt | and rd rs rt | or rd rs rt | nor rd rs rt | slt rd rs rt
  | sltu rd rs rt =>
    exact alike_regReg (fun _ => ⟨⟨rfl, nofun⟩, List.mem_singleton_self _⟩) (hsrc rs (by simp [Instr.sources]))
      (hsrc rt (by simp [Instr.sources]))
  | addi rt rs | slti rt rs | andi rt rs | ori rt rs =>
    exact alike_regImm (fun _ => ⟨⟨rfl, nofun⟩, List.mem_singleton_self _⟩) (hsrc rs (by simp [Instr.sources]))
  | lui rt => exact .act (a := .write rt _) ⟨⟨rfl, nofun⟩, List.mem_singleton_self _⟩
  | jr rs =>
    simp only [exec, execJr, portA_eq, ← hsrc rs (by simp [Instr.sources])]
    exact alike_jumpIf hpc (List.mem_singleton_self _)
  | beq rs rt imm | bne rs rt imm =>
    simp only [exec, execBeq, execBne, portA_eq, portB_eq, ← hsrc rs (by simp [Instr.sources]),
      ← hsrc rt (by simp [Instr.sources])]
    refine alike_jumpIf hpc ?_
    by_cases heq : s₁.x rs = s₁.x rt <;> simp [Instr.nextPcs, equalWords, branchTarget, sext32, heq]
  | lw rt imm rs =>
    exact alike_accessMemory h (hsrc rs (by simp [Instr.sources])) nofun (List.mem_singleton_self _)
      fun _ => ⟨rfl, nofun⟩
  | lhu rt imm rs =>
    simp only [exec, execLhu, h.cfg, pcCur_congr hpc]
    split
    · exact .act (a := .raise _) rfl
    · exact alike_accessMemory h (hsrc rs (by simp [Instr.sources])) nofun (List.mem_singleton_self _)
        fun _ => ⟨rfl, nofun⟩
  | sw rt imm rs =>
    exact alike_accessMemory h (hsrc rs (by simp [Instr.sources])) (fun _ => hsrc rt (by simp [Instr.sources]))
      (List.mem_singleton_self _) fun hne => absurd rfl hne
  | j => exact alike_jumpIf hpc (List.mem_singleton_self _)
  | jal target =>
    simp only [exec, execJal, hpc]
    exact .act (a := .link linkReg s₁.pc (jumpTarget target)) ⟨⟨rfl, nofun⟩, List.mem_singleton_self _⟩
  | syscall ign =>
    refine alike_syscallService h (hsrc syscallReg ?_) (fun h14 => hsrc argReg ?_) fun h10 => ?_
    · rw [sources_syscall]
      split <;> simp
    · rw [sources_syscall, if_pos h14]
      simp
    · exact (htp.resolve_left (not_not_intro rfl)).resolve_left (not_not_intro h10)

/-- Every next state of an execute phase comes from an action that fits the instruction. -/
theorem exec_action {i : Instr} {s t : State} (h : exec i s = .next t) : ∃ a : Action, a.Fits i s ∧ t = a.apply s := by
  obtain ⟨a, hfit, ht, -⟩ :=
    (exec_alike i (s₂ := s) ⟨rfl, rfl, rfl, rfl⟩ (fun _ _ => rfl) (.inr (.inr rfl))).next h
  exact ⟨a, hfit, ht⟩

/-! ### The obligations -/

/-- Settles O35: the action writes what 10 R22 lists, and syscall is listed for service 5 only. -/
theorem onlyTheDestinationRegisterChanges : Obligations.OnlyTheDestinationRegisterChanges := by
  refine ⟨fun i s t r h hr => ?_, fun g s t h h5 r => ?_⟩
  · obtain ⟨a, hfit, rfl⟩ := exec_action h
    exact apply_x_of_not_writes hfit fun hw => hr hw.1
  · obtain ⟨a, hfit, rfl⟩ := exec_action h
    exact apply_x_of_not_writes hfit fun hw => h5 (hw.2 rfl)

/-- Settles O38: the action leaves `pc` at an address of the list, or is a fault, which puts it back to `pc_cur`. -/
theorem nextPcIsOneOfTheListed : Obligations.NextPcIsOneOfTheListed := by
  intro i s t h
  obtain ⟨a, hfit, rfl⟩ := exec_action h
  exact apply_pc hfit

/-- Settles O36: equal sources give one action, which is the same change in both states. -/
theorem onlySourceRegistersMatter : Obligations.OnlySourceRegistersMatter := by
  intro i s₁ s₂ hagree hsrc
  have ⟨hcfg, hpc, htp, hmem, _, _, hin⟩ := hagree
  have halike := exec_alike i ⟨hcfg, hpc, hmem, hin⟩ hsrc (.inr (.inr htp))
  refine ⟨fun t₁ h => ?_, fun f => halike.fault⟩
  obtain ⟨a, -, rfl, h₂⟩ := halike.next h
  exact ⟨_, h₂, apply_agreeOutsideRegs hagree a, apply_same_or_unchanged hcfg a⟩

/-- Settles O20: with service 10 left out another TP gives the same action, and no action reads or writes TP. -/
theorem onlyExitReadsTextPointer : Obligations.OnlyExitReadsTextPointer := by
  intro i s v hi
  have halike := exec_alike i (s₁ := s) (s₂ := { s with tp := v }) ⟨rfl, rfl, rfl, rfl⟩ (fun _ _ => rfl)
    (hi.imp_right .inl)
  refine ⟨fun t h => ?_, fun f => halike.fault⟩
  obtain ⟨a, -, rfl, h₂⟩ := halike.next h
  exact h₂.trans (congrArg _ (apply_withTp s v a))

end Sys2Proof.Machine
end

section
/-!
PROOFS. Memory's obligations (spec/20_memory.md): the bounds check (R50, R51), the big-endian layout (R52, R53), which
instruction writes memory (R56), and a stored word loaded (R60) or fetched (R63).
-/
namespace Sys2Proof.Machine

/-! ### The effective address -/

/-- The 32-bit sum is the unbounded sum modulo 2^32 (20 R50). -/
theorem toNat_add_eq_emod (a b : Word) : ((a + b).toNat : Int) = (a.toInt + b.toInt) % 2 ^ 32 := by
  rw [BitVec.toInt_eq_toNat_cond, BitVec.toInt_eq_toNat_cond, BitVec.toNat_add]
  omega

/-- Settles O31: the sum or the sum + 2^32 is the remainder, and a negative sum's remainder is no less than MEM_SIZE. -/
theorem boundsCheckReadingsAgree : Obligations.BoundsCheckReadingsAgree := by
  intro s base imm
  have hbase_ge : -2 ^ 31 ≤ base.toInt := BitVec.le_toInt base
  have hbase_lt : base.toInt < 2 ^ 31 := BitVec.toInt_lt
  have himm_ge : -2 ^ 15 ≤ imm.toInt := BitVec.le_toInt imm
  have himm_lt : imm.toInt < 2 ^ 15 := BitVec.toInt_lt
  have hoffset : (imm.signExtend 32).toInt = imm.toInt := BitVec.toInt_signExtend_of_le (by decide)
  have hsum := toNat_add_eq_emod base (imm.signExtend 32)
  simp only [inBounds_iff, uint, hoffset] at hsum ⊢
  exact ⟨by omega, by omega, by omega, fun n hn hmem => by omega⟩

/-! ### Reads of another width -/

/-- A read inside a written range gives its slice of the value, the most significant byte at the lowest address (20 R53). -/
theorem read_write_slice (m : Memory) (a n : Nat) (v : BitVec (8 * n)) (j : Nat) : ∀ k, j + k ≤ n →
    (m.write a n v).read (a + j) k = v.extractLsb' (8 * (n - (j + k))) (8 * k)
  | 0, _ => BitVec.eq_of_zero_length rfl
  | k + 1, h => by
    have hlast : 8 * (n - 1 - (j + k)) = 8 * (n - (j + (k + 1))) := by omega
    rw [Memory.read, read_write_slice m a n v j k (by omega), Nat.add_assoc,
      readByte_write_inside m a (j + k) n v (by omega), hlast]
    exact BitVec.extractLsb'_append_extractLsb'_eq_extractLsb' (by omega)

/-- A read splits into the reads of its two parts, the first the more significant (20 R52). -/
theorem toNat_read_add (m : Memory) (a j : Nat) : ∀ k,
    (m.read a (j + k)).toNat = (m.read a j).toNat <<< (8 * k) ||| (m.read (a + j) k).toNat
  | 0 => by simp [toNat_read_zero]
  | k + 1 => by
    rw [← Nat.add_assoc, toNat_read_succ, toNat_read_add m a j k, toNat_read_succ, Nat.shiftLeft_or_distrib,
      ← Nat.shiftLeft_add, Nat.or_assoc, Nat.add_assoc, Nat.mul_succ]

theorem read_four (m : Memory) (a : Nat) : m.read a 4 = m.read a 2 ++ m.read (a + 2) 2 :=
  BitVec.eq_of_toNat_eq ((toNat_read_add m a 2 2).trans (BitVec.toNat_append _ _).symm)

/-- A word read across two adjacent word writes takes two bytes from each (20 R53). -/
theorem read_across_writes (m : Memory) (a : Nat) (v u : Word) :
    ((m.write a 4 v).write (a + 4) 4 u).read (a + 2) 4 = v.extractLsb' 0 16 ++ u.extractLsb' 16 16 := by
  have hlow : ((m.write a 4 v).write (a + 4) 4 u).read (a + 2) 2 = v.extractLsb' 0 16 :=
    (read_congr 2 fun k hk => readByte_write_outside _ 4 u (by omega)).trans (read_write_slice m a 4 v 2 2 (by decide))
  have hhigh : ((m.write a 4 v).write (a + 4) 4 u).read (a + 2 + 2) 2 = u.extractLsb' 16 16 :=
    read_write_slice (m.write a 4 v) (a + 4) 4 u 0 2 (by decide)
  rw [read_four, hlow, hhigh]

/-- Settles O32: each narrower read is a slice of the word written, and the example is one read across two writes. -/
theorem mixedWidthAccessesSeeBigEndian : Obligations.MixedWidthAccessesSeeBigEndian := by
  refine ⟨fun m a v => ⟨?_, ?_, fun k hk => ?_, ?_, fun c => ?_⟩, read_across_writes, fun m => ?_⟩
  · exact read_write_slice m a 4 v 0 2 (by decide)
  · exact read_write_slice m a 4 v 2 2 (by decide)
  · rw [readByte_write_inside m a k 4 v hk]
    congr 1
    omega
  · exact read_write_same m a 4 v
  · exact readByte_write_outside m 4 v
  · exact (read_across_writes m 0x100 _ _).trans (by decide)

/-! ### A stored word, loaded or fetched -/

/-- sw in bounds stores its word at its effective address and changes nothing else (41 R169). -/
theorem exec_sw_of_inBounds {rt rs : Reg} {imm : BitVec 16} {s : State} {ea : Word}
    (hea : effectiveAddress s rs imm = ea) (h : uint ea + 4 ≤ s.cfg.memSize) :
    exec (.sw rt imm rs) s = .next { s with mem := s.mem.writeWord ea (s.x rt) } := by
  subst hea
  exact accessMemory_SW h

/-- lw in bounds loads the word that stands at its effective address (41 R167). -/
theorem exec_lw_of_readWord {rt rs : Reg} {imm : BitVec 16} {s : State} {ea v : Word}
    (hea : effectiveAddress s rs imm = ea) (h : uint ea + 4 ≤ s.cfg.memSize) (hword : s.mem.readWord ea = v) :
    exec (.lw rt imm rs) s = .next (s.setX rt v) := by
  subst hea hword
  exact accessMemory_LW h

/-- Settles O33: both accesses have the one address, in bounds, and the load reads the word just written. -/
theorem storeThenLoadReturnsTheWord : Obligations.StoreThenLoadReturnsTheWord := by
  intro rt rs rt' rs' imm imm' s hb haddr
  exact ⟨_, _, exec_sw_of_inBounds rfl hb, exec_lw_of_readWord haddr hb (readWord_writeWord_same s.mem _ _),
    (registerWritten_setX _ rt' (s.x rt)).1⟩

/-- A running core whose `pc` is the address of a word just stored fetches that word (20 R63). -/
theorem fetches_stored {s : State} {ea : Word} (hrun : s.run = .running) (htp : ea ≠ s.tp)
    (hb : uint ea + 4 ≤ s.cfg.memSize) (v : Word) : FetchesWord { s with mem := s.mem.writeWord ea v, pc := ea } v :=
  ⟨hrun, htp, (inBounds_iff s ea 4).mpr hb, readWord_writeWord_same s.mem ea v⟩

theorem runWord_of_decode {w : Word} {i : Instr} (h : decode w = .instr i) (s : State) : runWord w s = exec i s := by
  simp [runWord, h]

/-- Settles O34: the next step fetches the word just written and runs it, and TP is no part of a store. -/
theorem storeIsSeenByTheNextFetch : Obligations.StoreIsSeenByTheNextFetch := by
  intro rt rs imm s i hrun hb htp hdec
  exact ⟨_, exec_sw_of_inBounds rfl hb, rfl,
    (step_of_fetches (fetches_stored hrun htp hb (s.x rt))).trans (runWord_of_decode hdec _)⟩

/-! ### What changes memory -/

/-- An access leaves memory as it was, or stores its word at the effective address. -/
theorem accessMemory_mem {op : LsuOp} {word : Word} {rt rs : Reg} {imm : BitVec 16} {s t : State}
    (h : accessMemory op word rt imm rs s = .next t) :
    t.mem = s.mem ∨ (op = .SW ∧ t.mem = s.mem.writeWord (effectiveAddress s rs imm) (s.x rt)) := by
  rcases accessMemory_cases op word rt imm rs s with ⟨-, h'⟩ | ⟨-, ⟨hop, h'⟩ | ⟨-, v, h'⟩⟩ <;> rw [h'] at h <;> cases h
  · exact .inl rfl
  · exact .inr ⟨hop, rfl⟩
  · exact .inl (setX_mem s rt v)

theorem accessMemory_keeps_mem {op : LsuOp} {word : Word} {rt rs : Reg} {imm : BitVec 16} {s t : State}
    (h : accessMemory op word rt imm rs s = .next t) (hop : op ≠ .SW) : t.mem = s.mem :=
  (accessMemory_mem h).resolve_right fun hsw => hop hsw.1

theorem servicePrintString_keeps_mem {word : Word} {s t : State} (h : servicePrintString word s = .next t) :
    t.mem = s.mem := by
  unfold servicePrintString at h
  split at h
  · cases h; rfl
  · split at h <;> cases h <;> rfl

theorem serviceReadInt_keeps_mem {word : Word} {s t : State} (h : serviceReadInt word s = .next t) :
    t.mem = s.mem := by
  cases hi : s.input with
  | nil => cases (serviceReadInt_blocked word hi).symm.trans h
  | cons answer rest =>
    cases answer with
    | value v =>
      cases (serviceReadInt_value word hi).symm.trans h
      exact setX_mem { s with input := rest } syscallReg v
    | noValue => cases (serviceReadInt_noValue word hi).symm.trans h; rfl

@[simp] theorem anomaly_mem (s : State) (k : AnomalyKind) (w : Word) (v : Option Word) : (s.anomaly k w v).mem = s.mem := by
  unfold State.anomaly
  split <;> rfl

/-- No service of syscall writes memory (43 R210). -/
theorem syscallService_keeps_mem {word : Word} {s t : State} (h : syscallService word s = .next t) :
    t.mem = s.mem := by
  rcases service_cases (s.x syscallReg) with h1 | h4 | h5 | h10 | ⟨h1, h4, h5, h10⟩
  · cases (service_printInt word h1).symm.trans h; rfl
  · exact servicePrintString_keeps_mem ((service_printString word h4).symm.trans h)
  · exact serviceReadInt_keeps_mem ((service_readInt word h5).symm.trans h)
  · cases (service_exit word h10).symm.trans h; rfl
  · cases (service_unknown word h1 h4 h5 h10).symm.trans h
    exact anomaly_mem s _ _ _

theorem jumpIf_keeps_mem {taken : Bool} {target : Word} {s t : State} (h : jumpIf taken target s = .next t) :
    t.mem = s.mem := by
  cases taken <;> cases h <;> rfl

/-- Every instruction but sw leaves memory as it was (20 R56). -/
theorem exec_keeps_mem {i : Instr} {s t : State} (h : exec i s = .next t) (hop : i.op ≠ .SW) : t.mem = s.mem := by
  cases i with
  | sll | sra | add | addu | sub | and | or | nor | slt | sltu | addi | slti | andi | ori | lui =>
    cases h; exact setX_mem s _ _
  | jr | beq | bne | j => exact jumpIf_keeps_mem h
  | jal => cases h; exact setX_mem s _ _
  | syscall => exact syscallService_keeps_mem h
  | lw => exact accessMemory_keeps_mem h (by decide)
  | lhu =>
    simp only [exec, execLhu] at h
    split at h
    · cases h; rfl
    · exact accessMemory_keeps_mem h (by decide)
  | sw => exact absurd rfl hop

/-- Settles O37: sw's access leaves memory as it was (a fault) or writes its word; no other instruction reaches a store. -/
theorem onlyStoreWordChangesMemory : Obligations.OnlyStoreWordChangesMemory := by
  refine ⟨fun i s t h hop a => by rw [exec_keeps_mem h hop], fun rt rs imm s t h c hc => ?_⟩
  obtain hmem | ⟨-, hmem⟩ := accessMemory_mem h
  · rw [hmem]
  · rw [hmem]
    exact readByte_writeWord_outside s.mem _ _ hc

end Sys2Proof.Machine
end

section
/-!
PROOFS. The encoding's obligations (spec/30_encoding.md): the encoders and the fields (R81 to R86, R97, R98), dispatch and
the opcode table (R82, R93), the round trips, and the ignored fields (R91).
-/
namespace Sys2Proof

/-! ### Which operation a word selects, format by format -/

theorem opOf_of_fmt_R {w : Word} (h : fmtOf (opcodeField w) = .R) : opOf w = opOfFunct (functField w) := by
  simp only [opOf, h]

theorem opOf_of_fmt_I {w : Word} (h : fmtOf (opcodeField w) = .I) : opOf w = opOfImmOpcode (opcodeField w) := by
  simp only [opOf, h]

theorem opOf_of_fmt_J {w : Word} (h : fmtOf (opcodeField w) = .J) : opOf w = opOfJumpOpcode (opcodeField w) := by
  simp only [opOf, h]

theorem opOf_encR (rs rt rd shamt : BitVec 5) (funct : BitVec 6) :
    opOf (encR rs rt rd shamt funct) = opOfFunct funct := by
  rw [opOf_of_fmt_R (by rw [opcodeField_encR]; rfl), functField_encR]

theorem opOf_encI {opcode : BitVec 6} (h : fmtOf opcode = .I) (rs rt : BitVec 5) (imm : BitVec 16) :
    opOf (encI opcode rs rt imm) = opOfImmOpcode opcode := by
  rw [opOf_of_fmt_I (by rw [opcodeField_encI, h]), opcodeField_encI]

theorem opOf_encJ {opcode : BitVec 6} (h : fmtOf opcode = .J) (target : BitVec 26) :
    opOf (encJ opcode target) = opOfJumpOpcode opcode := by
  rw [opOf_of_fmt_J (by rw [opcodeField_encJ, h]), opcodeField_encJ]

/-- An encoded instruction selects its own operation. -/
theorem opOf_encode (i : Instr) : opOf (encode i) = i.op := by
  cases i with
  | sll | sra | jr | syscall | add | addu | sub | and | or | nor | slt | sltu => exact opOf_encR ..
  | beq | bne | addi | slti | andi | ori | lui | lw | lhu | sw => exact opOf_encI rfl ..
  | j | jal => exact opOf_encJ rfl ..

/-! ### Decoding, by the operation -/

/-- The decoder reads the instruction off the operation and the fields. -/
theorem decode_of_opOf {w : Word} {op : Op} (h : opOf w = op) :
    decode w = instrOfBundle { decodeBundle w with op := op } := by
  subst h
  rfl

/-- An unrecognized word is rejected by the name of its handler: the R handler's for opcode 0x00, else the I handler's. -/
theorem decode_of_unrecognized {w : Word} (h : opOf w = .UNRECOGNIZED) :
    decode w = if fmtOf (opcodeField w) = .R then .unrecognizedFunct else .unrecognizedOpcode := by
  rw [decode_of_opOf h]
  cases hf : fmtOf (opcodeField w) <;> simp [instrOfBundle, decodeBundle, hf]

theorem decode_ne_instr_of_unrecognized {w : Word} (h : opOf w = .UNRECOGNIZED) (i : Instr) : decode w ≠ .instr i := by
  rw [decode_of_unrecognized h]
  split <;> exact DecodeResult.noConfusion

/-! ### Decoding an encoding -/

/-- The three fields jr ignores are slices of bits 20:6. -/
theorem slices15_append (v : BitVec 15) : v.extractLsb' 10 5 ++ v.extractLsb' 5 5 ++ v.extractLsb' 0 5 = v := by
  rw [BitVec.extractLsb'_append_extractLsb'_eq_extractLsb' (by rfl),
    BitVec.extractLsb'_append_extractLsb'_eq_extractLsb' (by rfl)]
  exact BitVec.extractLsb'_eq_self

/-- The four fields syscall ignores are slices of bits 25:6. -/
theorem slices20_append (v : BitVec 20) :
    v.extractLsb' 15 5 ++ v.extractLsb' 10 5 ++ v.extractLsb' 5 5 ++ v.extractLsb' 0 5 = v := by
  rw [BitVec.extractLsb'_append_extractLsb'_eq_extractLsb' (by rfl),
    BitVec.extractLsb'_append_extractLsb'_eq_extractLsb' (by rfl),
    BitVec.extractLsb'_append_extractLsb'_eq_extractLsb' (by rfl)]
  exact BitVec.extractLsb'_eq_self

/-- Settles O5: the encoding selects the instruction's operation, and each operand is a field that reads back; a shift count
needs its bound, and the fields that jr, syscall, j and jal hold as one value are put side by side again. -/
theorem decodeOfEncodeIsIdentity : Obligations.DecodeOfEncodeIsIdentity := by
  intro i hi
  rw [decode_of_opOf (opOf_encode i)]
  cases i with
  | sll rd rt shamt | sra rd rt shamt =>
    have hcount : shamt < 32 := of_decide_eq_true hi
    simp [Instr.op, instrOfBundle, decodeBundle, encode, Nat.mod_eq_of_lt hcount]
  | jr => simp [Instr.op, instrOfBundle, decodeBundle, encode, slices15_append]
  | syscall => simp [Instr.op, instrOfBundle, decodeBundle, encode, slices20_append]
  | add | addu | sub | and | or | nor | slt | sltu => simp [Instr.op, instrOfBundle, decodeBundle, encode, encR3]
  | beq | bne | addi | slti | andi | ori | lui | lw | lhu | sw => simp [Instr.op, instrOfBundle, decodeBundle, encode]
  | j | jal => simp [Instr.op, instrOfBundle, decodeBundle, encode, target_fields]

/-! ### Encoding what a word decodes to -/

theorem encR_of_fields {w : Word} {funct : BitVec 6} (ho : opcodeField w = 0x00#6) (hf : functField w = funct) :
    encR (rsField w) (rtField w) (rdField w) (shamtField w) funct = w :=
  hf ▸ encR_fields w ho

theorem encI_of_opcode {w : Word} {opcode : BitVec 6} (ho : opcodeField w = opcode) :
    encI opcode (rsField w) (rtField w) (immField w) = w :=
  ho ▸ encI_fields w

theorem encJ_of_opcode {w : Word} {opcode : BitVec 6} (ho : opcodeField w = opcode) :
    encJ opcode (rsField w ++ rtField w ++ immField w) = w := by
  rw [target_fields, ← ho, encJ_fields]

/-- A shift count read off the word is its field again: the encoder's cut to five bits takes nothing away. -/
theorem encR_of_fields_count {w : Word} {funct : BitVec 6} (ho : opcodeField w = 0x00#6) (hf : functField w = funct) :
    encR (rsField w) (rtField w) (rdField w) (BitVec.ofNat 5 (shamtField w).toNat) funct = w := by
  rw [BitVec.ofNat_toNat, BitVec.setWidth_eq]
  exact encR_of_fields ho hf

theorem encode_jr_of_fields {w : Word} (ho : opcodeField w = 0x00#6) (hf : functField w = 0x08#6) :
    encode (.jr (regOf (rsField w)) (rtField w ++ rdField w ++ shamtField w)) = w := by
  obtain ⟨ht, hd, hs⟩ := slices15 (rtField w) (rdField w) (shamtField w)
  rw [encode, ht, hd, hs]
  exact encR_of_fields ho hf

theorem encode_syscall_of_fields {w : Word} (ho : opcodeField w = 0x00#6) (hf : functField w = 0x0C#6) :
    encode (.syscall (rsField w ++ rtField w ++ rdField w ++ shamtField w)) = w := by
  obtain ⟨hs, ht, hd, hn⟩ := slices20 (rsField w) (rtField w) (rdField w) (shamtField w)
  rw [encode, hs, ht, hd, hn]
  exact encR_of_fields ho hf

/-- Every word is unrecognized, or decodes to a well-formed instruction that encodes to it: one case per row of
30 R87, R88, R89. -/
theorem decode_cases (w : Word) :
    opOf w = .UNRECOGNIZED ∨ ∃ i, decode w = .instr i ∧ encode i = w ∧ i.wellFormed = true := by
  rcases opOf_cases w with ⟨-, ho, hR⟩ | ⟨-, ho, hop⟩ | ⟨-, ho, hop⟩ | ⟨-, hI⟩
  · rcases hR with ⟨hf, hop⟩ | ⟨hf, hop⟩ | ⟨hf, hop⟩ | ⟨hf, hop⟩ | hR
    · exact .inr ⟨_, decode_of_opOf hop, encR_of_fields_count ho hf, decide_eq_true (shamtField w).isLt⟩
    · exact .inr ⟨_, decode_of_opOf hop, encR_of_fields_count ho hf, decide_eq_true (shamtField w).isLt⟩
    · exact .inr ⟨_, decode_of_opOf hop, encode_jr_of_fields ho hf, rfl⟩
    · exact .inr ⟨_, decode_of_opOf hop, encode_syscall_of_fields ho hf, rfl⟩
    · rcases hR with ⟨hf, hop⟩ | ⟨hf, hop⟩ | ⟨hf, hop⟩ | ⟨hf, hop⟩ | ⟨hf, hop⟩ | ⟨hf, hop⟩ | ⟨hf, hop⟩ | ⟨hf, hop⟩ |
        ⟨hop, -⟩
      case inr.inr.inr.inr.inr.inr.inr.inr => exact .inl hop
      all_goals exact .inr ⟨_, decode_of_opOf hop, encR_of_fields ho hf, rfl⟩
  · exact .inr ⟨_, decode_of_opOf hop, encJ_of_opcode ho, rfl⟩
  · exact .inr ⟨_, decode_of_opOf hop, encJ_of_opcode ho, rfl⟩
  · rcases hI with ⟨ho, hop⟩ | ⟨ho, hop⟩ | ⟨ho, hop⟩ | ⟨ho, hop⟩ | ⟨ho, hop⟩ | ⟨ho, hop⟩ | ⟨ho, hop⟩ | ⟨ho, hop⟩ |
      ⟨ho, hop⟩ | ⟨ho, hop⟩ | ⟨hop, -⟩
    case inr.inr.inr.inr.inr.inr.inr.inr.inr.inr => exact .inl hop
    all_goals exact .inr ⟨_, decode_of_opOf hop, encI_of_opcode ho, rfl⟩

/-- Settles O6: a word that decodes is in the second case, and its instruction is the only one it decodes to. -/
theorem encodeOfDecodeIsIdentity : Obligations.EncodeOfDecodeIsIdentity := by
  intro w i h
  obtain hun | ⟨i', h', hround⟩ := decode_cases w
  · exact absurd h (decode_ne_instr_of_unrecognized hun i)
  · obtain rfl : i' = i := DecodeResult.instr.inj (h'.symm.trans h)
    exact hround

/-! ### The encoders and the fields -/

/-- `encR` as the OR of its shifted fields (30 R98). -/
theorem encR_eq_or (rs rt rd shamt : BitVec 5) (funct : BitVec 6) :
    encR rs rt rd shamt funct =
      0x00#32 <<< 26 ||| rs.setWidth 32 <<< 21 ||| rt.setWidth 32 <<< 16 ||| rd.setWidth 32 <<< 11 |||
        shamt.setWidth 32 <<< 6 ||| funct.setWidth 32 := by
  rw [← BitVec.setWidth_eq (encR rs rt rd shamt funct)]
  simp only [encR, BitVec.setWidth_append_eq_shiftLeft_setWidth_or, BitVec.shiftLeft_or_distrib, ← BitVec.shiftLeft_add]
  rfl

/-- `encI` as the OR of its shifted fields (30 R98). -/
theorem encI_eq_or (opcode : BitVec 6) (rs rt : BitVec 5) (imm16 : BitVec 16) :
    encI opcode rs rt imm16 =
      opcode.setWidth 32 <<< 26 ||| rs.setWidth 32 <<< 21 ||| rt.setWidth 32 <<< 16 ||| imm16.setWidth 32 := by
  rw [← BitVec.setWidth_eq (encI opcode rs rt imm16)]
  simp only [encI, BitVec.setWidth_append_eq_shiftLeft_setWidth_or, BitVec.shiftLeft_or_distrib, ← BitVec.shiftLeft_add]

/-- `encJ` as the OR of its shifted fields (30 R98). -/
theorem encJ_eq_or (opcode : BitVec 6) (target26 : BitVec 26) :
    encJ opcode target26 = opcode.setWidth 32 <<< 26 ||| target26.setWidth 32 := by
  rw [← BitVec.setWidth_eq (encJ opcode target26), encJ, BitVec.setWidth_append_eq_shiftLeft_setWidth_or]

/-- Settles O2: the three OR forms, the fields of each encoding, and a word as its fields side by side. -/
theorem encodersShiftFieldsAndFieldsReadBack : Obligations.EncodersShiftFieldsAndFieldsReadBack :=
  ⟨fun rs rt rd shamt funct => ⟨encR_eq_or rs rt rd shamt funct, opcodeField_encR .., rsField_encR .., rtField_encR ..,
      rdField_encR .., shamtField_encR .., functField_encR ..⟩,
    fun opcode rs rt imm16 => ⟨encI_eq_or opcode rs rt imm16, opcodeField_encI .., rsField_encI .., rtField_encI ..,
      immField_encI ..⟩,
    fun opcode target26 => ⟨encJ_eq_or opcode target26, opcodeField_encJ .., targetField_encJ ..⟩,
    fun w => ⟨encI_fields w, encJ_fields w, encR_fields w⟩⟩

/-! ### Fields as numbers -/

/-- A field's number is a quotient and a remainder of the word's. -/
theorem toNat_extract (w : Word) (k n : Nat) : (w.extractLsb' k n).toNat = w.toNat / 2 ^ k % 2 ^ n := by
  rw [BitVec.extractLsb'_toNat, Nat.shiftRight_eq_div_pow]

/-- The six bits of the opcode are all that the division leaves. -/
theorem toNat_opcodeField (w : Word) : (opcodeField w).toNat = w.toNat / 2 ^ 26 := by
  rw [opcodeField, toNat_extract]
  have := w.isLt
  omega

theorem toNat_shamtField (w : Word) : (shamtField w).toNat = w.toNat / 2 ^ 6 % 2 ^ 5 := toNat_extract w 6 5

theorem toNat_functField (w : Word) : (functField w).toNat = w.toNat % 2 ^ 6 := by
  rw [functField, toNat_extract, pow_zero, Nat.div_one]

theorem toNat_immField (w : Word) : (immField w).toNat = w.toNat % 2 ^ 16 := by
  rw [immField, toNat_extract, pow_zero, Nat.div_one]

theorem toNat_targetField (w : Word) : (targetField w).toNat = w.toNat % 2 ^ 26 := by
  rw [targetField, toNat_extract, pow_zero, Nat.div_one]

/-- Sign extension keeps the signed value. -/
theorem toInt_sext32 (v : BitVec 16) : (sext32 v).toInt = v.toInt := BitVec.toInt_signExtend_of_le (by decide)

/-- Zero extension keeps the unsigned value. -/
theorem toNat_zext32 {n : Nat} (h : n ≤ 32) (v : BitVec n) : (zext32 v).toNat = v.toNat :=
  BitVec.toNat_setWidth_of_le h

/-- The bundle's parts agree as those of one word do (30 R97). -/
theorem decodeBundle_wellFormed (w : Word) : (decodeBundle w).wellFormed = true := by
  have hfmt : (decodeBundle w).fmtOk = true := decide_eq_true rfl
  have hlow : (decodeBundle w).lowHalfOk = true := decide_eq_true (imm_fields w).symm
  have hsimm : (decodeBundle w).simmOk = true := decide_eq_true rfl
  have htarget : (decodeBundle w).targetOk = true := decide_eq_true (congrArg zext32 (target_fields w).symm)
  rw [Decoded.wellFormed, hfmt, hlow, hsimm, htarget]
  rfl

/-- Settles O3: each part of the bundle is a field of the word, and a field is a quotient and a remainder. -/
theorem decodedBundleHoldsEveryField : Obligations.DecodedBundleHoldsEveryField := fun w =>
  ⟨toNat_opcodeField w, toNat_extract w 21 5, toNat_extract w 16 5, toNat_extract w 11 5, toNat_shamtField w,
    toNat_functField w, toNat_immField w, toInt_sext32 (immField w),
    (toNat_zext32 (by decide) (targetField w)).trans (toNat_targetField w), decodeBundle_wellFormed w⟩

/-! ### The opcode table -/

/-- An R row's mask covers opcode and funct, its opcode is 0x00, and its funct is its operation's. -/
theorem opcodeRowsR_fields : ∀ row ∈ opcodeRowsR, row.mask = 0xFC00003F#32 ∧ opcodeField row.pattern = 0x00#6 ∧
    opOfFunct (functField row.pattern) = row.op := by
  decide

/-- An I or J row's mask covers the opcode, which is no R opcode and is its operation's. -/
theorem opcodeRowsIJ_fields : ∀ row ∈ opcodeRowsIJ, row.mask = 0xFC000000#32 ∧
    (fmtOf (opcodeField row.pattern) = .I ∧ opOfImmOpcode (opcodeField row.pattern) = row.op ∨
      fmtOf (opcodeField row.pattern) = .J ∧ opOfJumpOpcode (opcodeField row.pattern) = row.op) := by
  decide

/-- A word in a row has the row's opcode and funct, which select its operation. -/
theorem opOf_of_holds {w : Word} {row : OpcodeRow} (hrow : row ∈ opcodeTable) (h : row.holds w = true) :
    opOf w = row.op := by
  have hw : w &&& row.mask = row.pattern := of_decide_eq_true h
  rcases List.mem_append.mp hrow with hR | hIJ
  · obtain ⟨hm, ho, hop⟩ := opcodeRowsR_fields row hR
    rw [hm] at hw
    rw [opOf_of_fmt_R (by rw [opcode_of_maskR hw, ho]; rfl), funct_of_maskR hw, hop]
  · obtain ⟨hm, ⟨hf, hop⟩ | ⟨hf, hop⟩⟩ := opcodeRowsIJ_fields row hIJ <;> rw [hm] at hw
    · rw [opOf_of_fmt_I (by rw [opcode_of_mask hw, hf]), opcode_of_mask hw, hop]
    · rw [opOf_of_fmt_J (by rw [opcode_of_mask hw, hf]), opcode_of_mask hw, hop]

/-- Every encoding lies in its instruction's row and in no other: the per-instruction family, put together. -/
theorem encode_holds_iff (i : Instr) : Laws.EncodeRow.Statement i := by
  cases i with
  | sll => exact Laws.EncodeRow.sll _ _ _ _
  | sra => exact Laws.EncodeRow.sra _ _ _ _
  | jr => exact Laws.EncodeRow.jr _ _
  | syscall => exact Laws.EncodeRow.syscall _
  | add => exact Laws.EncodeRow.add _ _ _ _
  | addu => exact Laws.EncodeRow.addu _ _ _ _
  | sub => exact Laws.EncodeRow.sub _ _ _ _
  | and => exact Laws.EncodeRow.and _ _ _ _
  | or => exact Laws.EncodeRow.or _ _ _ _
  | nor => exact Laws.EncodeRow.nor _ _ _ _
  | slt => exact Laws.EncodeRow.slt _ _ _ _
  | sltu => exact Laws.EncodeRow.sltu _ _ _ _
  | beq => exact Laws.EncodeRow.beq _ _ _
  | bne => exact Laws.EncodeRow.bne _ _ _
  | addi => exact Laws.EncodeRow.addi _ _ _
  | slti => exact Laws.EncodeRow.slti _ _ _
  | andi => exact Laws.EncodeRow.andi _ _ _
  | ori => exact Laws.EncodeRow.ori _ _ _
  | lui => exact Laws.EncodeRow.lui _ _ _
  | lw => exact Laws.EncodeRow.lw _ _ _
  | lhu => exact Laws.EncodeRow.lhu _ _ _
  | sw => exact Laws.EncodeRow.sw _ _ _
  | j => exact Laws.EncodeRow.j _
  | jal => exact Laws.EncodeRow.jal _

theorem op_of_decode {w : Word} {i : Instr} (h : decode w = .instr i) : i.op = opOf w := by
  rw [← opOf_encode, (encodeOfDecodeIsIdentity w i h).1]

/-- No instruction has the operation UNRECOGNIZED. -/
theorem op_ne_unrecognized (i : Instr) : i.op ≠ .UNRECOGNIZED := by
  cases i <;> exact Op.noConfusion

theorem decodes_iff (w : Word) : (∃ i, decode w = .instr i) ↔ opOf w ≠ .UNRECOGNIZED := by
  constructor
  · rintro ⟨i, h⟩
    exact op_of_decode h ▸ op_ne_unrecognized i
  · intro hop
    obtain ⟨i, h, -⟩ := (decode_cases w).resolve_left hop
    exact ⟨i, h⟩

/-- Every row is a recognized operation's. -/
theorem row_op_ne_unrecognized : ∀ row ∈ opcodeTable, row.op ≠ .UNRECOGNIZED := by decide

/-- Every recognized operation has a row. -/
theorem row_of_op {op : Op} (h : op ≠ .UNRECOGNIZED) : ∃ row ∈ opcodeTable, row.op = op := by
  revert h
  cases op <;> decide

/-- A word lies in the row of the operation it selects, and in no other. -/
theorem holds_iff_opOf {w : Word} {row : OpcodeRow} (hrow : row ∈ opcodeTable) :
    row.holds w = true ↔ opOf w = row.op := by
  refine ⟨opOf_of_holds hrow, fun hop => ?_⟩
  obtain ⟨i, hi⟩ := (decodes_iff w).mpr (hop ▸ row_op_ne_unrecognized row hrow)
  rw [← (encodeOfDecodeIsIdentity w i hi).1]
  exact (encode_holds_iff i row hrow).mpr (hop.symm.trans (op_of_decode hi).symm)

/-- A word that selects an operation lies in a row. -/
theorem exists_row_iff (w : Word) : (∃ row ∈ opcodeTable, row.holds w = true) ↔ opOf w ≠ .UNRECOGNIZED := by
  constructor
  · rintro ⟨row, hrow, h⟩
    exact opOf_of_holds hrow h ▸ row_op_ne_unrecognized row hrow
  · intro hop
    obtain ⟨row, hrow, hrowop⟩ := row_of_op hop
    exact ⟨row, hrow, (holds_iff_opOf hrow).mpr hrowop.symm⟩

/-- Settles O4: a row's mask covers the fields that select its operation, and every recognized operation has a row. -/
theorem opcodeTableSelectsTheOperation : Obligations.OpcodeTableSelectsTheOperation := by
  refine ⟨fun w row => holds_iff_opOf, fun w => ?_, fun w => (decodes_iff w).trans (exists_row_iff w).symm,
    fun w i => op_of_decode⟩
  rw [← not_iff_not, ← ne_eq, ← exists_row_iff]
  simp

/-! ### Dispatch -/

/-- An opcode of format J is that of j or of jal (30 R89). -/
theorem opOfJumpOpcode_of_fmt_J : ∀ opcode, fmtOf opcode = .J →
    opOfJumpOpcode opcode = .J ∨ opOfJumpOpcode opcode = .JAL := by
  decide

/-- An opcode outside the tables goes to the I handler, which does not know it (30 R82, R88). -/
theorem unrecognized_of_opcode : ∀ opcode ∉ [0x00#6, 0x02#6, 0x03#6, 0x04#6, 0x05#6, 0x08#6, 0x0A#6, 0x0C#6, 0x0D#6,
    0x0F#6, 0x23#6, 0x25#6, 0x2B#6], fmtOf opcode = .I ∧ opOfImmOpcode opcode = .UNRECOGNIZED := by
  decide

/-- Settles O7: the bundle's format is the chain of 30 R82, and each handler's answer is one of the opcode alone. -/
theorem dispatchFollowsTheOpcode : Obligations.DispatchFollowsTheOpcode := by
  refine ⟨fun w => rfl, fun w hfmt => ?_, fun w hout => ?_⟩
  · have hop : (decodeBundle w).op = opOfJumpOpcode (opcodeField w) := opOf_of_fmt_J hfmt
    rw [hop]
    exact opOfJumpOpcode_of_fmt_J (opcodeField w) hfmt
  · obtain ⟨hfmt, hop⟩ := unrecognized_of_opcode (opcodeField w) hout
    have hun : opOf w = .UNRECOGNIZED := (opOf_of_fmt_I hfmt).trans hop
    refine ⟨hfmt, hun, ?_⟩
    rw [decode_of_unrecognized hun, hfmt]
    rfl

/-- Settles O1: the five words of 30 R99, each evaluated. -/
theorem workedEncodingsDecode : Obligations.WorkedEncodingsDecode := by
  unfold Obligations.WorkedEncodingsDecode
  decide

end Sys2Proof

namespace Sys2Proof.Machine

/-! ### Operand assembly (30 R86) -/

/-- The shift drops the bits an extension adds, so lui is the same under either. -/
theorem luiValue_eq_zext (imm : BitVec 16) : luiValue imm = imm.setWidth 32 <<< 16 := by
  apply BitVec.eq_of_getLsbD_eq
  intro i hi
  have hlow : i - 16 < 16 := by omega
  simp only [luiValue, sext32, BitVec.getLsbD_shiftLeft, BitVec.getLsbD_signExtend, BitVec.getLsbD_setWidth, if_pos hlow]

/-- The lui value is the immediate over a zero half. -/
theorem luiValue_eq_append (imm : BitVec 16) : luiValue imm = imm ++ 0x0000#16 := by
  rw [luiValue_eq_zext, ← BitVec.setWidth_eq (imm ++ 0x0000#16), BitVec.setWidth_append_eq_shiftLeft_setWidth_or]
  simp

theorem immField_eq_ofNat (w : Word) : immField w = BitVec.ofNat 16 (w.toNat % 2 ^ 16) := by
  apply BitVec.eq_of_toNat_eq
  rw [toNat_immField, BitVec.toNat_ofNat, Nat.mod_mod]

/-- The count of a well-formed shift is the field of its word. -/
theorem count_of_shift_word {w : Word} {shamt : Nat} {rs rt rd : BitVec 5} {funct : BitVec 6} (hs : shamt < 32)
    (hw : encR rs rt rd (BitVec.ofNat 5 shamt) funct = w) : shamt = w.toNat / 2 ^ 6 % 2 ^ 5 := by
  rw [← toNat_shamtField, ← hw, shamtField_encR, BitVec.toNat_ofNat, Nat.mod_eq_of_lt hs]

/-- Settles O39: an extension keeps the value it extends, a field is a remainder of the word, and the word a shift decodes
from encodes its count. -/
theorem operandsAreAssembledAsListed : Obligations.OperandsAreAssembledAsListed := by
  refine ⟨fun imm => ⟨toInt_sext32 imm, toInt_sext32 imm, luiValue_eq_append imm, luiValue_eq_zext imm⟩,
    toNat_zext32 (by decide), fun w => ⟨?_, ?_, toNat_shamtField w, Nat.le_of_lt_succ (shamtField w).isLt⟩, ?_⟩
  · rw [simm, toInt_sext32, immField_eq_ofNat]
  · rw [jumpTarget, toNat_zext32 (by decide), toNat_targetField]
  · rintro w rd rt shamt g (h | h) <;> obtain ⟨hw, hs⟩ := encodeOfDecodeIsIdentity w _ h
    · exact count_of_shift_word (of_decide_eq_true hs) hw
    · exact count_of_shift_word (of_decide_eq_true hs) hw

/-! ### Ignored fields (30 R91) -/

/-- The same action with another instruction word in the record it raises or the event it emits. -/
def Action.withWord (w : Word) : Action → Action
  | .write rd v => .write rd v
  | .goto target => .goto target
  | .link rd v target => .link rd v target
  | .store m => .store m
  | .emit e => .emit (e.withWord w)
  | .read v rest => .read v rest
  | .raise rec => .raise (rec.withWord w)

/-- Two results come from one action but for the instruction word, or both wait for the host. -/
def AlikeButWord (w : Word) (s : State) (r r' : Result) : Prop :=
  (∃ a : Action, r = .next (a.apply s) ∧ r' = .next ((a.withWord w).apply s)) ∨
    (r = .fault .awaitingHost ∧ r' = .fault .awaitingHost)

theorem AlikeButWord.act {w : Word} {s : State} (a : Action) :
    AlikeButWord w s (.next (a.apply s)) (.next ((a.withWord w).apply s)) :=
  .inl ⟨a, rfl, rfl⟩

theorem printString_alikeButWord (w w' : Word) (s : State) :
    AlikeButWord w' s (servicePrintString w s) (servicePrintString w' s) := by
  unfold servicePrintString
  split
  · exact .act (.raise _)
  · split
    · exact .act (.emit (.printString _))
    · exact .act (.raise (memoryFault ..))

theorem readInt_alikeButWord (w w' : Word) (s : State) :
    AlikeButWord w' s (serviceReadInt w s) (serviceReadInt w' s) := by
  cases hi : s.input with
  | nil => exact .inr ⟨serviceReadInt_blocked w hi, serviceReadInt_blocked w' hi⟩
  | cons answer rest =>
    cases answer with
    | value v =>
      rw [serviceReadInt_value w hi, serviceReadInt_value w' hi]
      exact .act (.read v rest)
    | noValue =>
      rw [serviceReadInt_noValue w hi, serviceReadInt_noValue w' hi]
      exact .act (.raise (plainFault ..))

theorem anomaly_alikeButWord (w w' : Word) (s : State) (k : AnomalyKind) (v : Option Word) :
    AlikeButWord w' s (.next (s.anomaly k w v)) (.next (s.anomaly k w' v)) := by
  unfold State.anomaly
  split
  · exact .act (.raise (plainFault ..))
  · exact .act (.emit (.anomaly ..))

/-- No service looks at the instruction's word. -/
theorem syscallService_alikeButWord (w w' : Word) (s : State) :
    AlikeButWord w' s (syscallService w s) (syscallService w' s) := by
  rcases service_cases (s.x syscallReg) with h1 | h4 | h5 | h10 | ⟨h1, h4, h5, h10⟩
  · rw [service_printInt w h1, service_printInt w' h1]
    exact .act (.emit (.printInt _))
  · rw [service_printString w h4, service_printString w' h4]
    exact printString_alikeButWord w w' s
  · rw [service_readInt w h5, service_readInt w' h5]
    exact readInt_alikeButWord w w' s
  · rw [service_exit w h10, service_exit w' h10]
    exact .act (.goto s.tp)
  · rw [service_unknown w h1 h4 h5 h10, service_unknown w' h1 h4 h5 h10]
    exact anomaly_alikeButWord w w' s _ _

/-- With another word an action ends the same but for the word in the record taken and the event emitted. -/
theorem apply_withWord (s : State) (w : Word) (a : Action) :
    ((a.withWord w).apply s).regs = (a.apply s).regs ∧ ((a.withWord w).apply s).pc = (a.apply s).pc ∧
    ((a.withWord w).apply s).mem = (a.apply s).mem ∧ ((a.withWord w).apply s).tp = (a.apply s).tp ∧
    ((a.withWord w).apply s).input = (a.apply s).input ∧ ((a.withWord w).apply s).cfg = (a.apply s).cfg ∧
    (((a.apply s).run = s.run ∧ ((a.withWord w).apply s).run = s.run) ∨
      ∃ rec, (a.apply s).run = .faulted rec ∧ ((a.withWord w).apply s).run = .faulted (rec.withWord w)) ∧
    (((a.apply s).events = s.events ∧ ((a.withWord w).apply s).events = s.events) ∨
      ∃ e, (a.apply s).events = s.events ++ [e] ∧ ((a.withWord w).apply s).events = s.events ++ [e.withWord w]) := by
  cases a with
  | emit e => exact ⟨rfl, rfl, rfl, rfl, rfl, rfl, .inl ⟨rfl, rfl⟩, .inr ⟨e, rfl, rfl⟩⟩
  | raise rec => exact ⟨rfl, rfl, rfl, rfl, rfl, rfl, .inr ⟨rec, rfl, rfl⟩, .inr ⟨.stop (.faulted rec), rfl, rfl⟩⟩
  | read v rest =>
    refine ⟨rfl, rfl, rfl, rfl, rfl, rfl, .inl ?_, .inr ⟨.readInt v, ?_⟩⟩ <;>
      simp [Action.withWord, Action.apply, Event.withWord]
  | write | goto | link | store =>
    refine ⟨rfl, rfl, rfl, rfl, rfl, rfl, .inl ?_, .inl ?_⟩ <;> simp [Action.withWord, Action.apply]

/-- A register written with the value it reads leaves the state as it is, a hardwired register 0 too (10 R21). -/
theorem setX_x_same (s : State) (r : Reg) : s.setX r (s.x r) = s := by
  unfold State.setX State.x
  split
  · rfl
  · exact congrArg (fun regs => { s with regs := regs }) (Vector.set_getElem_self r.isLt)

/-- The all-zero word's instruction writes register 0 with its own value, shifted by 0. -/
theorem exec_nop (s : State) : exec (.sll 0 0 0 0#5) s = .next s :=
  congrArg Host.Outcome.next ((congrArg (s.setX 0) (BitVec.shiftLeft_zero (s.x 0))).trans (setX_x_same s 0))

/-- Settles O8: only syscall passes its word on, and every service does with it one action that carries it. -/
theorem ignoredFieldsHaveNoEffect : Obligations.IgnoredFieldsHaveNoEffect := by
  have halike (g g' : BitVec 20) (s : State) :
      AlikeButWord (encode (.syscall g')) s (exec (.syscall g) s) (exec (.syscall g') s) :=
    syscallService_alikeButWord (encode (.syscall g)) (encode (.syscall g')) s
  refine ⟨fun _ _ _ _ _ _ _ _ _ _ => ⟨rfl, rfl, rfl, rfl, rfl, rfl, rfl, rfl, rfl, rfl, rfl, rfl⟩,
    fun g g' s t h => ?_, fun g g' s f h => ?_, by decide, exec_nop⟩
  · obtain ⟨a, ha, ha'⟩ | ⟨hw, -⟩ := halike g g' s
    · obtain rfl : a.apply s = t := Host.Outcome.next.inj (ha.symm.trans h)
      exact ⟨_, ha', apply_withWord s _ a⟩
    · cases hw.symm.trans h
  · obtain ⟨a, ha, -⟩ | ⟨hw, hw'⟩ := halike g g' s
    · cases ha.symm.trans h
    · exact hw'.trans (hw.symm.trans h)

end Sys2Proof.Machine
end

section
/-!
PROOFS. The register-type obligations (spec/40_register_type.md): the rows (R120 to R130), the values each instruction
writes, jr and the step after it (R122), and the words outside the tables (R132, 41 R170).
-/
namespace Sys2Proof

/-! ### Rows and unrecognized words -/

/-- A word in a row of the table decodes by the row's operation, each operand from its field. -/
theorem rowDecodes_of_mem {op : Op} {mask pattern : Word} {f : Word → Instr} (hrow : ⟨op, mask, pattern⟩ ∈ opcodeTable)
    (hf : ∀ w, instrOfBundle { decodeBundle w with op := op } = .instr (f w)) : Machine.RowDecodes mask pattern f :=
  fun w hw => (decode_of_opOf (opOf_of_holds hrow (decide_eq_true hw))).trans (hf w)

/-- The R handler knows no funct outside its table (30 R87). -/
theorem unrecognized_of_funct : ∀ funct ∉ [0x00#6, 0x03#6, 0x08#6, 0x0C#6, 0x20#6, 0x21#6, 0x22#6, 0x24#6, 0x25#6,
    0x27#6, 0x2A#6, 0x2B#6], opOfFunct funct = .UNRECOGNIZED := by
  decide

theorem opOf_of_unrecognizedWord {w : Word} (h : Machine.UnrecognizedWord w) : opOf w = .UNRECOGNIZED := by
  obtain ⟨ho, hfunct⟩ | hopcode := h
  · exact (opOf_of_fmt_R (by rw [ho]; rfl)).trans (unrecognized_of_funct _ hfunct)
  · obtain ⟨hfmt, hop⟩ := unrecognized_of_opcode _ hopcode
    exact (opOf_of_fmt_I hfmt).trans hop

/-- There is no subu: funct 0x23 is not in the table (40 R125, R132). -/
theorem decode_funct_0x23 {w : Word} (h : w &&& 0xFC00003F#32 = 0x00000023#32) : decode w = .unrecognizedFunct := by
  have ho : opcodeField w = 0x00#6 := (opcode_of_maskR h).trans (by decide)
  have hfunct : functField w = 0x23#6 := (funct_of_maskR h).trans (by decide)
  rw [decode_of_unrecognized (opOf_of_unrecognizedWord (.inl ⟨ho, by rw [hfunct]; decide⟩)), ho]
  rfl

end Sys2Proof

namespace Sys2Proof.Machine

/-- Either rejection of a word ends in the DecodeAnomaly (60 R243). -/
theorem runWord_of_unrecognizedWord {w : Word} (h : UnrecognizedWord w) (s : State) :
    runWord w s = .next (s.anomaly .decodeAnomaly w none) := by
  rw [runWord, decode_of_unrecognized (opOf_of_unrecognizedWord h)]
  by_cases hfmt : fmtOf (opcodeField w) = .R
  · rw [if_pos hfmt]
  · rw [if_neg hfmt]

/-- Settles O12: the step is the anomaly in the advanced state, whose pc_cur is the address fetched from. -/
theorem unrecognizedWordIsAnomalyOrFault : Obligations.UnrecognizedWordIsAnomalyOrFault := by
  intro s w hfetch hw
  have hstep : step s = .next (s.advance.anomaly .decodeAnomaly w none) :=
    (step_of_fetches hfetch).trans (runWord_of_unrecognizedWord hw s.advance)
  have hpc : s.advance.pcCur = s.pc := advance_pcCur s
  refine ⟨fun hlax => ⟨_, hstep, ?_⟩, fun hstrict => ⟨_, hstep, ?_, rfl⟩⟩
  · rw [anomaly_lax (s := s.advance) hlax, hpc]
    obtain ⟨hrun, -⟩ := hfetch
    exact ⟨rfl, rfl, fun _ => rfl, fun _ => rfl, hrun, rfl, rfl, rfl⟩
  · rw [anomaly_strict (s := s.advance) hstrict, hpc]
    exact faultTaken_raise s.advance _

/-! ### The values written -/

/-- The left shift is the product modulo 2^32. -/
theorem aluSll_eq_ofNat (a : Word) (shamt : Nat) : aluSll a shamt = BitVec.ofNat 32 (a.toNat * 2 ^ shamt) := by
  apply BitVec.eq_of_toNat_eq
  rw [aluSll, BitVec.toNat_shiftLeft, Nat.shiftLeft_eq, BitVec.toNat_ofNat]

/-- The arithmetic right shift is the floored quotient: `/` on `Int` rounds down for a positive divisor. -/
theorem aluSra_eq_ofInt (a : Word) (shamt : Nat) : aluSra a shamt = BitVec.ofInt 32 (a.toInt / 2 ^ shamt) := by
  rw [aluSra, BitVec.sshiftRight, Int.shiftRight_eq_div_pow, Nat.cast_pow, Nat.cast_ofNat]

/-- Past bit 31 the right shift copies bit 31. -/
theorem getLsbD_aluSra (a : Word) (shamt : Nat) {i : Nat} (hi : i < 32) :
    (aluSra a shamt).getLsbD i = a.getLsbD (min (i + shamt) 31) := by
  have hin : (!decide (32 ≤ i)) = true := by simpa using hi
  rw [aluSra, BitVec.getLsbD_sshiftRight, hin, Bool.true_and, Nat.add_comm shamt i]
  split
  next hlt => rw [Nat.min_eq_left (by omega)]
  next hge => rw [Nat.min_eq_right (by omega), BitVec.msb_eq_getLsbD_last]

theorem aluAdd_eq_ofInt (a b : Word) : aluAdd a b = BitVec.ofInt 32 (a.toInt + b.toInt) := by
  rw [BitVec.ofInt_add, BitVec.ofInt_toInt, BitVec.ofInt_toInt, aluAdd]

theorem aluSub_eq_ofInt (a b : Word) : aluSub a b = BitVec.ofInt 32 (a.toInt - b.toInt) := by
  apply BitVec.eq_of_toInt_eq
  rw [aluSub, BitVec.toInt_sub, BitVec.toInt_ofInt]

theorem getLsbD_aluNor (a b : Word) {i : Nat} (hi : i < 32) :
    (aluNor a b).getLsbD i = !(a.getLsbD i || b.getLsbD i) := by
  rw [aluNor, BitVec.getLsbD_not, BitVec.getLsbD_or, decide_eq_true hi, Bool.true_and]

/-- The register value of a compare is 1 where it holds and 0 where it does not (40 R129). -/
theorem boolWord_decide (p : Prop) [Decidable p] :
    boolWord (decide p) = if p then 0x00000001#32 else 0x00000000#32 := by
  simp only [boolWord, decide_eq_true_eq]

/-- With the same bit 31 the signed values differ from the unsigned ones by the same amount, 0 or 2^32 (40 R130). -/
theorem lessSigned_eq_lessUnsigned {a b : Word} (h : a.msb = b.msb) : lessSigned a b = lessUnsigned a b := by
  simp only [lessSigned, lessUnsigned, sint, uint, decide_eq_decide, BitVec.toInt_eq_msb_cond, h]
  split <;> omega

/-! ### The execute phase -/

/-- A three-register instruction completes and writes its operation's value. -/
theorem regReg_writes {f : Word → Word → Word} {s : State} {rs rt : Reg} {v : Word} (hv : f (s.x rs) (s.x rt) = v)
    (rd : Reg) : ∃ t, regReg f rd rs rt s = .next t ∧ RegisterWritten s t rd v :=
  ⟨_, regReg_eq f rd rs rt s, hv ▸ registerWritten_setX s rd _⟩

/-- Settles O40: the row decodes to sll, which writes the product. -/
theorem sllWritesShiftedValue : Obligations.SllWritesShiftedValue :=
  ⟨rowDecodes_of_mem (op := .SLL) (by decide) fun _ => rfl, fun rd rt shamt g s =>
    ⟨_, shiftReg_eq aluSll rd rt shamt s, aluSll_eq_ofNat (s.x rt) shamt ▸ registerWritten_setX s rd _⟩⟩

/-- Settles O41: the row decodes to sra, whose value is the floored quotient and has the bits listed. -/
theorem sraWritesFlooredQuotient : Obligations.SraWritesFlooredQuotient :=
  ⟨rowDecodes_of_mem (op := .SRA) (by decide) fun _ => rfl, fun rd rt shamt g s =>
    ⟨_, _, shiftReg_eq aluSra rd rt shamt s, registerWritten_setX s rd _, aluSra_eq_ofInt (s.x rt) shamt,
      fun _ hi => getLsbD_aluSra (s.x rt) shamt hi⟩⟩

/-- A running core off TP whose `pc` has no four bytes faults at the fetch (70 R285). -/
theorem step_faults_at_fetch {s : State} (hr : s.run = .running) (hp : s.pc ≠ s.tp) (hb : ¬ uint s.pc + 4 ≤ s.cfg.memSize) :
    step s = .next (s.raise (memoryFault .fetch s.pc none s.pc 4)) := by
  have hout : s.inBounds s.pc 4 = false := by rwa [← inBounds_iff, Bool.not_eq_true] at hb
  simp [step, sequencerStep, hr, hp, fetchAndRun, fetchUnit_fault hout]

/-- Every step checks where `pc` stands, whatever put it there. -/
theorem nextStepChecksTarget (t : State) : NextStepChecksTarget t := fun hr =>
  ⟨fun hp => ⟨_, step_halts_at_tp hr hp, rfl⟩, fun hp hb => ⟨_, step_faults_at_fetch hr hp hb, faultTaken_raise t _⟩⟩

/-- Settles O42: the row decodes to jr, which sets `pc` and leaves the check to the next step. -/
theorem jrSetsPcToRegister : Obligations.JrSetsPcToRegister :=
  ⟨rowDecodes_of_mem (op := .JR) (by decide) fun _ => rfl, fun rs _ s =>
    ⟨_, jumpIf_true (s.x rs) s, pcOnly_setPc s (s.x rs), nextStepChecksTarget _⟩⟩

/-- Settles O43: the 32-bit sum and difference are the signed ones modulo 2^32, and addu runs add's own rule. -/
theorem addAndSubWrapModulo : Obligations.AddAndSubWrapModulo := by
  refine ⟨rowDecodes_of_mem (op := .ADD) (by decide) fun _ => rfl,
    rowDecodes_of_mem (op := .ADDU) (by decide) fun _ => rfl,
    rowDecodes_of_mem (op := .SUB) (by decide) fun _ => rfl, fun rd rs rt g s => ?_⟩
  have hadd := regReg_writes (aluAdd_eq_ofInt (s.x rs) (s.x rt)) rd
  exact ⟨hadd, hadd, regReg_writes (aluSub_eq_ofInt (s.x rs) (s.x rt)) rd, rfl, fun _ => decode_funct_0x23⟩

/-- Settles O44: each value is taken bit by bit from the sources. -/
theorem logicWritesBitwiseResult : Obligations.LogicWritesBitwiseResult := by
  refine ⟨rowDecodes_of_mem (op := .AND) (by decide) fun _ => rfl,
    rowDecodes_of_mem (op := .OR) (by decide) fun _ => rfl,
    rowDecodes_of_mem (op := .NOR) (by decide) fun _ => rfl, fun rd rs rt g s => ⟨?_, ?_, ?_⟩⟩
  · exact ⟨_, _, regReg_eq aluAnd rd rs rt s, registerWritten_setX s rd _, fun _ _ => BitVec.getLsbD_and⟩
  · exact ⟨_, _, regReg_eq aluOr rd rs rt s, registerWritten_setX s rd _, fun _ _ => BitVec.getLsbD_or⟩
  · exact ⟨_, _, regReg_eq aluNor rd rs rt s, registerWritten_setX s rd _, fun _ => getLsbD_aluNor _ _⟩

/-- Settles O45: each compare's bit is the register's value, and with the same bit 31 the two compares are one. -/
theorem setLessThanWritesOneOrZero : Obligations.SetLessThanWritesOneOrZero := by
  refine ⟨rowDecodes_of_mem (op := .SLT) (by decide) fun _ => rfl,
    rowDecodes_of_mem (op := .SLTU) (by decide) fun _ => rfl, fun rd rs rt g s => ?_, fun rd rs rt g s hmsb => ?_⟩
  · exact ⟨regReg_writes (boolWord_decide _) rd, regReg_writes (boolWord_decide _) rd⟩
  · have hval : aluSlt (s.x rs) (s.x rt) = aluSltu (s.x rs) (s.x rt) := congrArg boolWord (lessSigned_eq_lessUnsigned hmsb)
    exact congrArg (fun v => Host.Outcome.next (s.setX rd v)) hval

end Sys2Proof.Machine
end

section
/-!
PROOFS. The immediate-type obligations (spec/41_immediate_type.md): the rows (R160 to R169), the branch targets, the values
under the sign-extended immediate, and the three memory accesses in and out of bounds.
-/
namespace Sys2Proof

/-- There is no unsigned variant of slti: opcode 0x0B is not in the table (41 R163, R170). -/
theorem decode_opcode_0x0B {w : Word} (h : w &&& 0xFC000000#32 = 0x2C000000#32) : decode w = .unrecognizedOpcode := by
  have ho : opcodeField w = 0x0B#6 := (opcode_of_mask h).trans (by decide)
  rw [decode_of_unrecognized (opOf_of_unrecognizedWord (.inr (by rw [ho]; decide))), ho]
  rfl

/-! ### The sign-extended immediate -/

/-- Past bit 15 the extension copies bit 15 of the immediate. -/
theorem getLsbD_sext32 (v : BitVec 16) {i : Nat} (hi : i < 32) : (sext32 v).getLsbD i = v.getLsbD (min i 15) := by
  rw [sext32, BitVec.getLsbD_signExtend, decide_eq_true hi, Bool.true_and]
  split
  next hlt => rw [Nat.min_eq_left (by omega)]
  next hge => rw [Nat.min_eq_right (by omega), BitVec.msb_eq_getLsbD_last]

theorem toNat_sext32_of_lt {v : BitVec 16} (h : v.toNat < 0x8000) : (sext32 v).toNat = v.toNat := by
  rw [sext32, BitVec.signExtend, BitVec.toNat_ofInt, BitVec.toInt_eq_toNat_cond, if_pos (by omega)]
  omega

/-- A negative immediate is extended into the last 2^15 addresses. -/
theorem toNat_sext32_of_ge {v : BitVec 16} (h : 0x8000 ≤ v.toNat) : (sext32 v).toNat = v.toNat + 0xFFFF0000 := by
  rw [sext32, BitVec.signExtend, BitVec.toNat_ofInt, BitVec.toInt_eq_toNat_cond, if_neg (by omega)]
  omega

/-- A halfword under a zero half. -/
theorem zext32_append (b0 b1 : Byte) : zext32 (b0 ++ b1) = 0x0000#16 ++ b0 ++ b1 := by
  apply BitVec.eq_of_toNat_eq
  rw [toNat_zext32 (by decide), BitVec.toNat_append, BitVec.toNat_append, BitVec.toNat_append]
  simp

end Sys2Proof

namespace Sys2Proof.Machine

/-! ### Branches -/

/-- A jump or branch changes `pc` alone, and leaves the check of the target to the next step. -/
theorem jumpIf_completes {taken : Bool} {target v : Word} {s : State} (hv : (if taken = true then target else s.pc) = v) :
    ∃ t, jumpIf taken target s = .next t ∧ PcOnly s t v ∧ NextStepChecksTarget t := by
  subst hv
  cases taken
  case true => exact ⟨_, jumpIf_true target s, pcOnly_setPc s target, nextStepChecksTarget _⟩
  case false => exact ⟨_, jumpIf_false target s, pcOnly_same s, nextStepChecksTarget _⟩

theorem exec_beq (rs rt : Reg) (imm : BitVec 16) (s : State) :
    exec (.beq rs rt imm) s = jumpIf (decide (s.x rs = s.x rt)) (BitVec.ofInt 32 imm.toInt) s := rfl

theorem exec_bne (rs rt : Reg) (imm : BitVec 16) (s : State) :
    exec (.bne rs rt imm) s = jumpIf (!decide (s.x rs = s.x rt)) (BitVec.ofInt 32 imm.toInt) s := rfl

/-- No address in the upper half is TP or has four bytes in memory (00 R6, 10 R27). -/
theorem upper_half_outside {t : State} {a : Word} (hinv : t.Inv) (ha : 2 ^ 31 < uint a) :
    a ≠ t.tp ∧ ¬ uint a + 4 ≤ t.cfg.memSize := by
  obtain ⟨⟨-, hmem⟩, -, -, htp, -⟩ := hinv
  refine ⟨fun heq => ?_, by omega⟩
  rw [heq] at ha
  omega

/-- Settles O46: a branch is a conditional jump, and a negative target lies in the upper half of the addresses, where the
invariant leaves neither TP nor memory. -/
theorem branchesGoToAbsoluteTarget : Obligations.BranchesGoToAbsoluteTarget := by
  refine ⟨rowDecodes_of_mem (op := .BEQ) (by decide) fun _ => rfl, rowDecodes_of_mem (op := .BNE) (by decide) fun _ => rfl,
    fun rs rt imm s => ⟨?_, ?_⟩, fun imm => ⟨toNat_sext32_of_lt, fun hneg => ?_⟩, fun imm t hneg hinv hrun hpc => ?_⟩
  · rw [exec_beq]
    exact jumpIf_completes (by simp only [decide_eq_true_eq])
  · rw [exec_bne]
    exact jumpIf_completes (by simp only [Bool.not_eq_true', decide_eq_false_iff_not, ite_not])
  · have htarget := toNat_sext32_of_ge hneg
    exact (show 0xFFFF8000 ≤ imm.toNat + 0xFFFF0000 by omega).trans_eq htarget.symm
  · have htarget : uint t.pc = imm.toNat + 0xFFFF0000 := (congrArg uint hpc).trans (toNat_sext32_of_ge hneg)
    obtain ⟨htp, hout⟩ := upper_half_outside hinv (a := t.pc) (by omega)
    obtain ⟨-, hfault⟩ := nextStepChecksTarget t hrun
    exact hfault htp hout

/-! ### One register from another and the immediate -/

/-- An instruction on a register and the immediate completes and writes its operation's value. -/
theorem regImm_writes {f : Word → Word → Word} {s : State} {rs : Reg} {imm : BitVec 16} {v : Word}
    (hv : f (s.x rs) (sext32 imm) = v) (rt : Reg) : ∃ t, regImm f rt rs imm s = .next t ∧ RegisterWritten s t rt v :=
  ⟨_, regImm_eq f rt rs imm s, hv ▸ registerWritten_setX s rt _⟩

theorem aluAdd_sext32 (a : Word) (imm : BitVec 16) : aluAdd a (sext32 imm) = BitVec.ofInt 32 (a.toInt + imm.toInt) := by
  rw [aluAdd_eq_ofInt, toInt_sext32]

theorem aluSlt_sext32 (a : Word) (imm : BitVec 16) :
    aluSlt a (sext32 imm) = if a.toInt < imm.toInt then 0x00000001#32 else 0x00000000#32 := by
  rw [aluSlt, lessSigned, boolWord_decide, sint, sint, toInt_sext32]

theorem getLsbD_aluAnd_sext32 (a : Word) (imm : BitVec 16) {i : Nat} (hi : i < 32) :
    (aluAnd a (sext32 imm)).getLsbD i = (a.getLsbD i && imm.getLsbD (min i 15)) := by
  rw [aluAnd, BitVec.getLsbD_and, getLsbD_sext32 imm hi]

theorem getLsbD_aluOr_sext32 (a : Word) (imm : BitVec 16) {i : Nat} (hi : i < 32) :
    (aluOr a (sext32 imm)).getLsbD i = (a.getLsbD i || imm.getLsbD (min i 15)) := by
  rw [aluOr, BitVec.getLsbD_or, getLsbD_sext32 imm hi]

/-- Settles O47: the sum and the compare take the immediate's own signed value, which the extension keeps. -/
theorem addiAndSltiUseTheSignedImmediate : Obligations.AddiAndSltiUseTheSignedImmediate :=
  ⟨rowDecodes_of_mem (op := .ADDI) (by decide) fun _ => rfl, rowDecodes_of_mem (op := .SLTI) (by decide) fun _ => rfl,
    fun rt rs imm s => ⟨regImm_writes (aluAdd_sext32 (s.x rs) imm) rt, regImm_writes (aluSlt_sext32 (s.x rs) imm) rt,
      fun _ => decode_opcode_0x0B⟩⟩

/-- Settles O48: each bit of the value is taken from the register and the extended immediate. -/
theorem logicImmediatesSignExtend : Obligations.LogicImmediatesSignExtend := by
  refine ⟨rowDecodes_of_mem (op := .ANDI) (by decide) fun _ => rfl,
    rowDecodes_of_mem (op := .ORI) (by decide) fun _ => rfl, fun rt rs imm s => ⟨?_, ?_⟩⟩
  · exact ⟨_, _, regImm_eq aluAnd rt rs imm s, registerWritten_setX s rt _, fun _ => getLsbD_aluAnd_sext32 _ imm⟩
  · exact ⟨_, _, regImm_eq aluOr rt rs imm s, registerWritten_setX s rt _, fun _ => getLsbD_aluOr_sext32 _ imm⟩

/-- Settles O49: the row decodes to lui, which writes the immediate over a zero half. -/
theorem luiWritesUpperHalf : Obligations.LuiWritesUpperHalf :=
  ⟨rowDecodes_of_mem (op := .LUI) (by decide) fun _ => rfl, fun rt imm _ s =>
    ⟨_, writeBack_eq rt (luiValue imm) s, luiValue_eq_append imm ▸ registerWritten_setX s rt _⟩⟩

/-! ### Memory accesses -/

/-- An access out of bounds is the precise MemoryFault with its kind, effective address and size (20 R65, 60 R247). -/
theorem accessMemory_takes_fault {op : LsuOp} {word : Word} {rt rs : Reg} {imm : BitVec 16} {s : State} {ea : Word}
    (hea : effectiveAddress s rs imm = ea) (h : ¬ uint ea + op.size ≤ s.cfg.memSize) :
    ∃ t, accessMemory op word rt imm rs s = .next t ∧
      FaultTaken s t ⟨.memoryFault, some op.kind, s.pc - 4#32, some word, some ea, some op.size, none⟩ := by
  subst hea
  exact ⟨_, accessMemory_fault h, faultTaken_raise s _⟩

/-- Settles O50: lw is one load of four bytes, which reads them or faults. -/
theorem loadWordReadsOrFaults : Obligations.LoadWordReadsOrFaults := by
  refine ⟨rowDecodes_of_mem (op := .LW) (by decide) fun _ => rfl, fun rt rs imm s ea hea hb => ?_,
    fun rt rs imm s ea hea hout => ?_⟩
  · exact ⟨_, exec_lw_of_readWord hea.symm hb (readWord_eq s.mem ea), registerWritten_setX s rt _⟩
  · exact accessMemory_takes_fault (op := .LW) hea.symm hout

/-- In `implement` mode lhu is one load of two bytes (41 R168). -/
theorem exec_lhu_of_implement {s : State} (h : s.cfg.lhuMode = .implement) (rt rs : Reg) (imm : BitVec 16) :
    exec (.lhu rt imm rs) s = accessMemory .LHU (encode (.lhu rt imm rs)) rt imm rs s := by
  simp only [exec, execLhu, h]

/-- In `fault` mode lhu takes the fault before it looks at the address (41 R168, 60 R249). -/
theorem exec_lhu_of_fault {s : State} (h : s.cfg.lhuMode = .fault) (rt rs : Reg) (imm : BitVec 16) :
    exec (.lhu rt imm rs) s =
      .next (s.raise (plainFault .unimplementedOpcode s.pcCur (encode (.lhu rt imm rs)) none)) := by
  simp only [exec, execLhu, h]

/-- lhu in bounds loads the zero-extended halfword at its effective address (41 R168). -/
theorem exec_lhu_of_inBounds {rt rs : Reg} {imm : BitVec 16} {s : State} {ea : Word} (hmode : s.cfg.lhuMode = .implement)
    (hea : effectiveAddress s rs imm = ea) (h : uint ea + 2 ≤ s.cfg.memSize) :
    exec (.lhu rt imm rs) s = .next (s.setX rt (0x0000#16 ++ s.mem.readByte (uint ea) ++ s.mem.readByte (uint ea + 1))) := by
  subst hea
  rw [exec_lhu_of_implement hmode, accessMemory_LHU h, readHalf_eq, zext32_append]

/-- Settles O51: the mode decides between the fault and one load of two bytes, which reads them or faults. -/
theorem loadHalfwordReadsOrFaults : Obligations.LoadHalfwordReadsOrFaults := by
  refine ⟨rowDecodes_of_mem (op := .LHU) (by decide) fun _ => rfl, fun rt rs imm s ea hea hmode hb => ?_,
    fun rt rs imm s ea hea hmode hout => ?_, fun rt rs imm s hmode => ?_⟩
  · exact ⟨_, exec_lhu_of_inBounds hmode hea.symm hb, registerWritten_setX s rt _⟩
  · rw [exec_lhu_of_implement hmode]
    exact accessMemory_takes_fault (op := .LHU) hea.symm hout
  · exact ⟨_, exec_lhu_of_fault hmode rt rs imm, faultTaken_raise s _⟩

/-- Settles O52: sw is one store of four bytes, the most significant at the effective address, or a fault. -/
theorem storeWordWritesOrFaults : Obligations.StoreWordWritesOrFaults := by
  refine ⟨rowDecodes_of_mem (op := .SW) (by decide) fun _ => rfl, fun rt rs imm s ea hea hb => ?_,
    fun rt rs imm s ea hea hout => ?_⟩
  · refine ⟨_, exec_sw_of_inBounds hea.symm hb, fun k hk => ?_, fun _ => readByte_writeWord_outside s.mem ea (s.x rt),
      fun _ => rfl, rfl, rfl, rfl, rfl, rfl, rfl⟩
    have hshift : 24 - 8 * k = 8 * (3 - k) := by omega
    exact hshift ▸ readByte_writeWord_inside s.mem ea (s.x rt) hk
  · exact accessMemory_takes_fault (op := .SW) hea.symm hout

end Sys2Proof.Machine
end

section
/-!
PROOFS. The jump-type obligation (spec/42_jump_type.md): the rows of j and jal, their target, and the link that jal writes
(R200, R201).
-/
namespace Sys2Proof.Machine

/-- The target is taken as it stands in the word: no scaling, no bits of `pc` (42 R200). -/
theorem jumpTarget_eq_ofNat (target : BitVec 26) : jumpTarget target = BitVec.ofNat 32 target.toNat :=
  (BitVec.ofNat_toNat 32 target).symm

theorem exec_j (target : BitVec 26) (s : State) : exec (.j target) s = jumpIf true (jumpTarget target) s := rfl

theorem exec_jal (target : BitVec 26) (s : State) :
    exec (.jal target) s = .next ((s.setX linkReg s.pc).setPc (jumpTarget target)) := rfl

/-- `R0_HARDWIRED` is about register 0 alone (10 R21). -/
theorem x_of_writesReg {s t : State} {rd : Reg} {v : Word} (h : WritesReg s t rd v) (hrd : rd ≠ 0) : t.x rd = v := by
  obtain ⟨hself, -⟩ := h
  rw [hself, if_neg (by simp [hrd])]

/-- A link and the jump after it: one register and `pc` change, nothing else (42 R201). -/
theorem setX_setPc_frame (s : State) (rd : Reg) (v target : Word) :
    WritesReg s ((s.setX rd v).setPc target) rd v ∧ SameMem s ((s.setX rd v).setPc target) ∧
      SameControl s ((s.setX rd v).setPc target) := by
  obtain ⟨hreg, -, hmem, hcontrol⟩ := registerWritten_setX s rd v
  exact ⟨hreg, hmem, hcontrol⟩

/-- Settles O53: the target field is the instruction's operand; j is an unconditional jump, and jal writes register 31 first,
which no build hardwires. -/
theorem jumpsGoToAbsoluteTargetAndJalLinks : Obligations.JumpsGoToAbsoluteTargetAndJalLinks := by
  refine ⟨rowDecodes_of_mem (op := .J) (by decide) fun w => congrArg (DecodeResult.instr <| .j ·) (target_fields w),
    rowDecodes_of_mem (op := .JAL) (by decide) fun w => congrArg (DecodeResult.instr <| .jal ·) (target_fields w),
    fun target s => ⟨?_, ?_⟩⟩
  · rw [exec_j]
    exact jumpIf_completes (jumpTarget_eq_ofNat target)
  · obtain ⟨hreg, hmem, hcontrol⟩ := setX_setPc_frame s linkReg s.pc (jumpTarget target)
    have hlink := x_of_writesReg hreg (by decide)
    obtain ⟨-, hother⟩ := hreg
    exact ⟨_, exec_jal target s, hlink, hother, jumpTarget_eq_ofNat target, hmem, hcontrol, nextStepChecksTarget _⟩

end Sys2Proof.Machine
end

section
/-!
PROOFS. The system-call services (spec/43_syscall.md): what each answers (R211 to R215), which of them ran (R210), and when a
running core has a next step (60 R258).
-/
namespace Sys2Proof.Machine

theorem exec_syscall (ign : BitVec 20) (s : State) :
    exec (.syscall ign) s = syscallService (encode (.syscall ign)) s := rfl

/-- The numbers of 43 R210's table, as a list. -/
theorem not_mem_services_iff (v : Word) :
    v ∉ [0x00000001#32, 0x00000004#32, 0x00000005#32, 0x0000000A#32] ↔
      v ≠ svcPrintInt ∧ v ≠ svcPrintString ∧ v ≠ svcReadInt ∧ v ≠ svcExit := by
  simp [svcPrintInt, svcPrintString, svcReadInt, svcExit]

/-! ### Print-integer and print-string -/

/-- Settles O55: the service is the event and nothing else. -/
theorem printIntEmitsSignedValue : Obligations.PrintIntEmitsSignedValue := fun _ s h1 =>
  ⟨_, service_printInt _ h1, eventOnly_emit s _⟩

/-- In `fault` mode no byte is read (43 R212, 92 D12). -/
theorem servicePrintString_of_fault (word : Word) {s : State} (h : s.cfg.printStringMode = .fault) :
    servicePrintString word s =
      .next (s.raise (plainFault .unimplementedOpcode s.pcCur word (some (s.x syscallReg)))) := by
  simp [servicePrintString, h]

theorem servicePrintString_of_text (word : Word) {s : State} {bytes : List Byte} (h : s.cfg.printStringMode = .implement)
    (hscan : s.mem.scan (uint (s.x argReg)) (s.cfg.memSize - uint (s.x argReg)) = .text bytes) :
    servicePrintString word s = .next (s.emit (.printString bytes)) := by
  simp [servicePrintString, h, hscan]

theorem servicePrintString_of_outOfBounds (word : Word) {s : State} {a : Nat} (h : s.cfg.printStringMode = .implement)
    (hscan : s.mem.scan (uint (s.x argReg)) (s.cfg.memSize - uint (s.x argReg)) = .outOfBounds a) :
    servicePrintString word s =
      .next (s.raise (memoryFault .load s.pcCur (some word) (BitVec.ofNat 32 a) 1)) := by
  simp [servicePrintString, h, hscan]

/-- With no NUL in memory from `a` on, the scan ends at the first address out of memory: `a` itself where it is already out. -/
theorem scan_no_nul {m : Memory} {a size : Nat} (h : ∀ b, a ≤ b → b < size → m.readByte b ≠ 0x00#8) :
    m.scan a (size - a) = .outOfBounds (max a size) := by
  have hend : a + (size - a) = max a size := by omega
  rw [scan_outOfBounds m (size - a) a fun k hk => h (a + k) (by omega) (by omega), hend]

/-- Settles O56: the mode decides between the fault and the byte scan, which finds the first NUL or the end of memory. -/
theorem printStringEmitsOrFaults : Obligations.PrintStringEmitsOrFaults := by
  refine ⟨fun g s h4 hmode => ?_, fun g s n h4 hmode hn hbytes hnul => ?_, fun g s h4 hmode hbytes => ?_⟩ <;>
    rw [exec_syscall, service_printString _ h4]
  · exact ⟨_, servicePrintString_of_fault _ hmode, faultTaken_raise s _⟩
  · have hroom : n < s.cfg.memSize - uint (s.x 4) := Nat.lt_sub_iff_add_lt'.mpr hn
    have hscan := scan_text s.mem n (uint (s.x 4)) (s.cfg.memSize - uint (s.x 4)) hroom hbytes hnul
    exact ⟨_, servicePrintString_of_text _ hmode hscan, eventOnly_emit s _⟩
  · exact ⟨_, servicePrintString_of_outOfBounds _ hmode (scan_no_nul hbytes), faultTaken_raise s _⟩

/-! ### Read-integer, exit and the unknown service -/

/-- Settles O57: the host's next answer decides; a value is written to register 2, which no build hardwires. -/
theorem readIntTakesTheHostsAnswer : Obligations.ReadIntTakesTheHostsAnswer := by
  refine ⟨fun g s v rest h5 hin => ?_, fun g s rest h5 hin => ?_, fun g s h5 hin => ?_⟩ <;>
    rw [exec_syscall, service_readInt _ h5]
  · obtain ⟨hreg, hpc, hmem, hcfg, htp, hrun, hevents, hinput⟩ :=
      registerWritten_setX { s with input := rest } syscallReg v
    have hvalue := x_of_writesReg hreg (by decide)
    obtain ⟨-, hother⟩ := hreg
    exact ⟨_, serviceReadInt_value _ hin, hvalue, hother, congrArg (· ++ [Event.readInt v]) hevents, hinput, hpc, hmem,
      hcfg, htp, hrun⟩
  · exact ⟨_, serviceReadInt_noValue _ hin, faultTaken_raise s _, rfl⟩
  · exact serviceReadInt_blocked _ hin

/-- Settles O58: after `pc <- TP` the halt test of the next step fires, before any fetch. -/
theorem exitSetsPcToTpAndNextStepHalts : Obligations.ExitSetsPcToTpAndNextStepHalts := fun _ s h10 =>
  ⟨_, service_exit _ h10, pcOnly_setPc s s.tp, fun hrun =>
    ⟨_, step_halts_at_tp (s := s.setPc s.tp) hrun rfl, rfl, rfl, rfl, fun _ => rfl, fun _ => rfl⟩⟩

/-- Settles O59: the service is the anomaly, an event or a fault by `STRICT_DECODE`. -/
theorem unknownServiceIsAnomalyOrFault : Obligations.UnknownServiceIsAnomalyOrFault := by
  intro g s hunknown
  obtain ⟨h1, h4, h5, h10⟩ := (not_mem_services_iff _).mp hunknown
  rw [exec_syscall, service_unknown _ h1 h4 h5 h10]
  refine ⟨fun hlax => ⟨_, rfl, ?_⟩, fun hstrict => ⟨_, rfl, ?_, rfl⟩⟩
  · rw [anomaly_lax hlax]
    exact eventOnly_emit s _
  · rw [anomaly_strict hstrict]
    exact faultTaken_raise s _

/-! ### The event shows the service -/

/-- The service number is one of those that emit the event; a fault's Stop event shows no service. -/
def Event.Shows (service : Word) : Event → Prop
  | .printInt _ => service = svcPrintInt
  | .printString _ => service = svcPrintString
  | .readInt _ => service = svcReadInt
  | .anomaly _ _ _ _ => service ∉ [0x00000001#32, 0x00000004#32, 0x00000005#32, 0x0000000A#32]
  | .stop _ => True

/-- A completed service shows in the event it emits; only exit emits none. -/
def ServiceLogged (s t : State) : Prop :=
  (s.x syscallReg = svcExit ∧ t.events = s.events) ∨
    ∃ e : Event, e.Shows (s.x syscallReg) ∧ t.events = s.events ++ [e]

theorem serviceLogged_raise (s : State) (rec : FaultRecord) : ServiceLogged s (s.raise rec) :=
  .inr ⟨.stop (.faulted rec), trivial, rfl⟩

theorem servicePrintString_logged {word : Word} {s t : State} (h4 : s.x syscallReg = svcPrintString)
    (h : servicePrintString word s = .next t) : ServiceLogged s t := by
  cases hmode : s.cfg.printStringMode with
  | fault =>
    cases (servicePrintString_of_fault word hmode).symm.trans h
    exact serviceLogged_raise s _
  | implement =>
    cases hscan : s.mem.scan (uint (s.x argReg)) (s.cfg.memSize - uint (s.x argReg)) with
    | text bytes =>
      cases (servicePrintString_of_text word hmode hscan).symm.trans h
      exact .inr ⟨.printString bytes, h4, rfl⟩
    | outOfBounds a =>
      cases (servicePrintString_of_outOfBounds word hmode hscan).symm.trans h
      exact serviceLogged_raise s _

theorem serviceReadInt_logged {word : Word} {s t : State} (h5 : s.x syscallReg = svcReadInt)
    (h : serviceReadInt word s = .next t) : ServiceLogged s t := by
  cases hin : s.input with
  | nil => cases (serviceReadInt_blocked word hin).symm.trans h
  | cons answer rest =>
    cases answer with
    | value v =>
      cases (serviceReadInt_value word hin).symm.trans h
      exact .inr ⟨.readInt v, h5, by simp⟩
    | noValue =>
      cases (serviceReadInt_noValue word hin).symm.trans h
      exact serviceLogged_raise s _

theorem serviceUnknown_logged (word : Word) {s : State}
    (hunknown : s.x syscallReg ∉ [0x00000001#32, 0x00000004#32, 0x00000005#32, 0x0000000A#32]) (v : Option Word) :
    ServiceLogged s (s.anomaly .unknownSyscall word v) := by
  unfold State.anomaly
  split
  · exact serviceLogged_raise s _
  · exact .inr ⟨.anomaly .unknownSyscall s.pcCur word v, hunknown, rfl⟩

theorem syscallService_logged {word : Word} {s t : State} (h : syscallService word s = .next t) : ServiceLogged s t := by
  rcases service_cases (s.x syscallReg) with h1 | h4 | h5 | h10 | hunknown
  · cases (service_printInt word h1).symm.trans h
    exact .inr ⟨.printInt _, h1, rfl⟩
  · exact servicePrintString_logged h4 ((service_printString word h4).symm.trans h)
  · exact serviceReadInt_logged h5 ((service_readInt word h5).symm.trans h)
  · cases (service_exit word h10).symm.trans h
    exact .inl ⟨h10, rfl⟩
  · obtain ⟨h1, h4, h5, h10⟩ := hunknown
    cases (service_unknown word h1 h4 h5 h10).symm.trans h
    exact serviceUnknown_logged word ((not_mem_services_iff _).mpr ⟨h1, h4, h5, h10⟩) _

theorem ServiceLogged.shows {s t : State} {e : Event} (h : ServiceLogged s t) (he : t.events = s.events ++ [e]) :
    e.Shows (s.x syscallReg) := by
  obtain ⟨-, hsilent⟩ | ⟨e', hshows, he'⟩ := h
  · simp [he] at hsilent
  · obtain rfl : e = e' := by simpa [he] using he'
    exact hshows

theorem ServiceLogged.exit_of_silent {s t : State} (h : ServiceLogged s t) (hsilent : t.events = s.events) :
    s.x syscallReg = svcExit := by
  obtain ⟨h10, -⟩ | ⟨e, -, he⟩ := h
  · exact h10
  · simp [hsilent] at he

/-- Settles O54: the row decodes to syscall, each number selects its service, and the log shows which service ran. -/
theorem syscallSelectsServiceByWholeX2 : Obligations.SyscallSelectsServiceByWholeX2 := by
  refine ⟨rowDecodes_of_mem (op := .SYSCALL) (by decide) fun _ => rfl, fun g s => ?_, fun g s t h => ?_⟩
  · refine ⟨service_printInt _, service_printString _, service_readInt _, service_exit _, fun hunknown => ?_⟩
    obtain ⟨h1, h4, h5, h10⟩ := (not_mem_services_iff _).mp hunknown
    exact service_unknown _ h1 h4 h5 h10
  · have hlog : ServiceLogged s t := syscallService_logged h
    exact ⟨fun ⟨_, he⟩ => hlog.shows he, fun ⟨_, he⟩ => hlog.shows he, fun ⟨_, he⟩ => hlog.shows he,
      fun ⟨_, _, _, _, he⟩ => hlog.shows he, hlog.exit_of_silent⟩

/-! ### When a running core has a next step -/

/-- Every word runs to a next state but a syscall that reads an integer with no answer of the host. -/
theorem runWord_cases (w : Word) (s : State) :
    (∃ t, runWord w s = .next t) ∨
      (runWord w s = .fault .awaitingHost ∧ opOf w = .SYSCALL ∧ s.x syscallReg = svcReadInt ∧ s.input = []) := by
  cases hdec : decode w with
  | instr i =>
    rw [runWord_of_decode hdec]
    refine (exec_cases i s).imp_right fun ⟨hwait, ⟨g, hi⟩, h5, hin⟩ => ⟨hwait, ?_, h5, hin⟩
    rw [← op_of_decode hdec, hi]
    rfl
  | unrecognizedFunct => exact .inl ⟨_, by rw [runWord, hdec]⟩
  | unrecognizedOpcode => exact .inl ⟨_, by rw [runWord, hdec]⟩

/-- Once the host has answered, every word runs to a next state (60 R258, R259). -/
theorem runWord_completes_of_input {w : Word} {s : State} (h : s.input ≠ []) : ∃ t, runWord w s = .next t :=
  (runWord_cases w s).resolve_right fun ⟨_, _, _, hin⟩ => h hin

/-- Settles O14: a running core halts, faults at the fetch, or runs a word; only the last can wait, and then it fetches the
same word after the answer. -/
theorem runningCoreStepsUnlessAwaitingHost : Obligations.RunningCoreStepsUnlessAwaitingHost := by
  intro s hrun
  by_cases hp : s.pc = s.tp
  · exact .inl ⟨_, step_halts_at_tp hrun hp⟩
  by_cases hb : uint s.pc + 4 ≤ s.cfg.memSize
  · have hfetch : FetchesWord s (s.mem.readWord s.pc) := ⟨hrun, hp, (inBounds_iff s s.pc 4).mpr hb, rfl⟩
    rw [step_of_fetches hfetch]
    refine (runWord_cases _ s.advance).imp_right fun ⟨hwait, hop, h5, hin⟩ => ⟨hwait, hin, h5, hp, hop, fun a => ?_⟩
    have hfetch' : FetchesWord (s.answer a) (s.mem.readWord s.pc) := hfetch
    rw [step_of_fetches hfetch']
    exact runWord_completes_of_input (by simp)
  · exact .inl ⟨_, step_faults_at_fetch hrun hp hb⟩

end Sys2Proof.Machine
end

section
/-!
PROOFS. The exceptions' obligations (spec/60_exceptions.md): what a faulting step keeps (R247), the cause of each kind of
fault (R241 to R246), and the order of a step's checks (R249).
-/
namespace Sys2Proof.Machine

/-! ### What a faulting step keeps -/

/-- A fault discards the advance after the fetch: it sets `pc` itself (60 R247). -/
theorem advance_raise (s : State) (rec : FaultRecord) : s.advance.raise rec = s.raise rec := rfl

/-- A running core whose run state an operation keeps has not faulted. -/
theorem not_faulted_of_run_eq {s t : State} {rec : FaultRecord} (hr : s.run = .running) (ht : t.run = s.run) :
    t.run ≠ .faulted rec := by
  rw [ht, hr]
  exact RunState.noConfusion

/-- Of the eight effects only a fault leaves a running core Faulted. -/
theorem effect_faulted {s t : State} {rec : FaultRecord} (hr : s.run = .running) (he : Effect s t)
    (hf : t.run = .faulted rec) : t = s.raise rec ∧ rec.faultPc = s.pcCur ∧ rec.WellFormed := by
  cases he with
  | stay | jump | store | event => exact absurd hf (not_faulted_of_run_eq hr rfl)
  | reg rd v | link rd v => exact absurd hf (not_faulted_of_run_eq hr (setX_run s rd v))
  | read v rest => exact absurd hf (not_faulted_of_run_eq hr (setX_run { s with input := rest } syscallReg v))
  | fault _ hpc hw =>
    cases hf
    exact ⟨rfl, hpc, hw⟩

/-- A step that ends in Faulted is the one shared operation of 60 R247 at the step's own `pc`, with a record that fills its
kind's fields. -/
theorem step_faulted {s t : State} {rec : FaultRecord} (h : step s = .next t) (hf : t.run = .faulted rec) :
    t = s.raise rec ∧ rec.faultPc = s.pc ∧ rec.WellFormed := by
  obtain ⟨hrun, ⟨-, rfl⟩ | ⟨-, -, rfl⟩ | ⟨-, -, -, heffect⟩⟩ := step_cases h
  · cases hf
  · cases hf
    exact ⟨rfl, rfl, by simp [memoryFault, FaultRecord.WellFormed]⟩
  · obtain ⟨ht, hpc, hw⟩ := effect_faulted (s := s.advance) hrun heffect hf
    exact ⟨ht.trans (advance_raise s rec), hpc.trans (advance_pcCur s), hw⟩

/-- Settles O16: the faulting step is `State.raise` at `pc`, which changes `run` and the events alone. -/
theorem faultsArePrecise : Obligations.FaultsArePrecise := by
  intro s t rec h hf
  obtain ⟨rfl, hpc, -⟩ := step_faulted h hf
  exact ⟨hpc, hpc, rfl, rfl, rfl, rfl, rfl, rfl⟩

/-! ### The causes of faults -/

/-- The faults a word may raise in the execute phase, by its operation: each with its cause in the state and the record it
fills (60 R242 to R246). -/
inductive FaultCause (s : State) (word : Word) : Op → FaultRecord → Prop where
  | lw (ea : Word) (hb : s.inBounds ea 4 = false) :
      FaultCause s word .LW (memoryFault .load s.pcCur (some word) ea 4)
  | lhu (ea : Word) (hmode : s.cfg.lhuMode = .implement) (hb : s.inBounds ea 2 = false) :
      FaultCause s word .LHU (memoryFault .load s.pcCur (some word) ea 2)
  | sw (ea : Word) (hb : s.inBounds ea 4 = false) :
      FaultCause s word .SW (memoryFault .store s.pcCur (some word) ea 4)
  | printString (a : Word) (h4 : s.x syscallReg = svcPrintString) (hmode : s.cfg.printStringMode = .implement)
      (hb : s.inBounds a 1 = false) : FaultCause s word .SYSCALL (memoryFault .load s.pcCur (some word) a 1)
  | unrecognized (hstrict : s.cfg.strictDecode = true) :
      FaultCause s word .UNRECOGNIZED (plainFault .decodeAnomaly s.pcCur word none)
  | lhuUnimplemented (hmode : s.cfg.lhuMode = .fault) :
      FaultCause s word .LHU (plainFault .unimplementedOpcode s.pcCur word none)
  | printStringUnimplemented (h4 : s.x syscallReg = svcPrintString) (hmode : s.cfg.printStringMode = .fault) :
      FaultCause s word .SYSCALL (plainFault .unimplementedOpcode s.pcCur word (some (s.x syscallReg)))
  | noValue (rest : List HostAnswer) (h5 : s.x syscallReg = svcReadInt) (hin : s.input = .noValue :: rest) :
      FaultCause s word .SYSCALL (plainFault .inputFault s.pcCur word none)
  | unknownService (hstrict : s.cfg.strictDecode = true)
      (hunknown : s.x syscallReg ∉ [0x00000001#32, 0x00000004#32, 0x00000005#32, 0x0000000A#32]) :
      FaultCause s word .SYSCALL (plainFault .unknownSyscall s.pcCur word (some (s.x syscallReg)))

section
variable {s t : State} {word : Word} {rec : FaultRecord}

/-- An access faults by the load_store_unit's bounds check alone (20 R65). -/
theorem accessMemory_faulted {op : LsuOp} {rt rs : Reg} {imm : BitVec 16} (hr : s.run = .running)
    (h : accessMemory op word rt imm rs s = .next t) (hf : t.run = .faulted rec) :
    ∃ ea, s.inBounds ea op.size = false ∧ rec = memoryFault op.kind s.pcCur (some word) ea op.size := by
  rcases accessMemory_cases op word rt imm rs s with ⟨hb, h'⟩ | ⟨-, ⟨-, h'⟩ | ⟨-, v, h'⟩⟩ <;> cases h'.symm.trans h
  · cases hf
    exact ⟨_, hb, rfl⟩
  · exact absurd hf (not_faulted_of_run_eq hr rfl)
  · exact absurd hf (not_faulted_of_run_eq hr (setX_run s rt v))

/-- A scan that leaves memory ends at the first address past the room it had. -/
theorem eq_of_scan_outOfBounds {m : Memory} {b : Nat} : ∀ {room a : Nat}, m.scan a room = .outOfBounds b → b = a + room
  | 0, _, h => by cases h; rfl
  | room + 1, a, h => by
    rw [Memory.scan] at h
    split at h
    · cases h
    · cases hs : m.scan (a + 1) room with
      | text bytes => rw [hs] at h; cases h
      | outOfBounds c =>
        rw [hs] at h
        cases h
        have := eq_of_scan_outOfBounds hs
        omega

/-- The address in print-string's record fails the bounds check: MEM_SIZE fits in 32 bits, so the scan's address does not wrap
(43 R212). -/
theorem inBounds_scan_outOfBounds (hcfg : s.cfg.WellFormed) {base : Word} {a : Nat}
    (h : s.mem.scan (uint base) (s.cfg.memSize - uint base) = .outOfBounds a) : s.inBounds (BitVec.ofNat 32 a) 1 = false := by
  obtain ⟨-, hmem⟩ := hcfg
  have ha := eq_of_scan_outOfBounds h
  have hbase : uint base < 2 ^ 32 := base.isLt
  have hnat : uint (BitVec.ofNat 32 a) = a := by rw [uint, BitVec.toNat_ofNat, Nat.mod_eq_of_lt (by omega)]
  rw [State.inBounds, hnat]
  exact decide_eq_false (by omega)

/-- An anomaly faults under `STRICT_DECODE` alone (60 R243, R246). -/
theorem anomaly_faulted {k : AnomalyKind} {v : Option Word} (hr : s.run = .running)
    (hf : (s.anomaly k word v).run = .faulted rec) :
    s.cfg.strictDecode = true ∧ rec = plainFault k.error s.pcCur word v := by
  cases hstrict : s.cfg.strictDecode with
  | false =>
    rw [anomaly_lax hstrict] at hf
    exact absurd hf (not_faulted_of_run_eq hr rfl)
  | true =>
    rw [anomaly_strict hstrict] at hf
    cases hf
    exact ⟨rfl, rfl⟩

theorem servicePrintString_faultCause (hcfg : s.cfg.WellFormed) (hr : s.run = .running)
    (h4 : s.x syscallReg = svcPrintString) (h : servicePrintString word s = .next t) (hf : t.run = .faulted rec) :
    FaultCause s word .SYSCALL rec := by
  cases hmode : s.cfg.printStringMode with
  | fault =>
    cases (servicePrintString_of_fault word hmode).symm.trans h
    cases hf
    exact .printStringUnimplemented h4 hmode
  | implement =>
    cases hscan : s.mem.scan (uint (s.x argReg)) (s.cfg.memSize - uint (s.x argReg)) with
    | text bytes =>
      cases (servicePrintString_of_text word hmode hscan).symm.trans h
      exact absurd hf (not_faulted_of_run_eq hr rfl)
    | outOfBounds a =>
      cases (servicePrintString_of_outOfBounds word hmode hscan).symm.trans h
      cases hf
      exact .printString _ h4 hmode (inBounds_scan_outOfBounds hcfg hscan)

theorem serviceReadInt_faultCause (hr : s.run = .running) (h5 : s.x syscallReg = svcReadInt)
    (h : serviceReadInt word s = .next t) (hf : t.run = .faulted rec) : FaultCause s word .SYSCALL rec := by
  cases hin : s.input with
  | nil => cases (serviceReadInt_blocked word hin).symm.trans h
  | cons answer rest =>
    cases answer with
    | value v =>
      cases (serviceReadInt_value word hin).symm.trans h
      exact absurd hf (not_faulted_of_run_eq hr (setX_run { s with input := rest } syscallReg v))
    | noValue =>
      cases (serviceReadInt_noValue word hin).symm.trans h
      cases hf
      exact .noValue rest h5 hin

theorem syscallService_faultCause (hcfg : s.cfg.WellFormed) (hr : s.run = .running)
    (h : syscallService word s = .next t) (hf : t.run = .faulted rec) : FaultCause s word .SYSCALL rec := by
  rcases service_cases (s.x syscallReg) with h1 | h4 | h5 | h10 | hunknown
  · cases (service_printInt word h1).symm.trans h
    exact absurd hf (not_faulted_of_run_eq hr rfl)
  · exact servicePrintString_faultCause hcfg hr h4 ((service_printString word h4).symm.trans h) hf
  · exact serviceReadInt_faultCause hr h5 ((service_readInt word h5).symm.trans h) hf
  · cases (service_exit word h10).symm.trans h
    exact absurd hf (not_faulted_of_run_eq hr rfl)
  · obtain ⟨h1, h4, h5, h10⟩ := hunknown
    cases (service_unknown word h1 h4 h5 h10).symm.trans h
    obtain ⟨hstrict, rfl⟩ := anomaly_faulted hr hf
    exact .unknownService hstrict ((not_mem_services_iff _).mpr ⟨h1, h4, h5, h10⟩)

theorem lhu_faultCause {rt rs : Reg} {imm : BitVec 16} (hr : s.run = .running)
    (h : exec (.lhu rt imm rs) s = .next t) (hf : t.run = .faulted rec) :
    FaultCause s (encode (.lhu rt imm rs)) .LHU rec := by
  cases hmode : s.cfg.lhuMode with
  | fault =>
    cases (exec_lhu_of_fault hmode rt rs imm).symm.trans h
    cases hf
    exact .lhuUnimplemented hmode
  | implement =>
    obtain ⟨ea, hb, rfl⟩ := accessMemory_faulted hr ((exec_lhu_of_implement hmode rt rs imm).symm.trans h) hf
    exact .lhu ea hmode hb

theorem jumpIf_keeps_run {taken : Bool} {target : Word} (h : jumpIf taken target s = .next t) : t.run = s.run := by
  cases taken <;> cases h <;> rfl

/-- Only the memory accesses and syscall can set `run` (70 R288). -/
theorem exec_keeps_run {i : Instr} (hi : i.op ∉ [.LW, .LHU, .SW, .SYSCALL]) (h : exec i s = .next t) : t.run = s.run := by
  cases i with
  | lw | lhu | sw | syscall => exact absurd (by simp [Instr.op]) hi
  | jr | beq | bne | j => exact jumpIf_keeps_run h
  | jal target => cases h; exact setX_run s linkReg s.pc
  | sll | sra | add | addu | sub | and | or | nor | slt | sltu | addi | slti | andi | ori | lui =>
    cases h
    exact setX_run s _ _

/-- An instruction that faults has one of the causes of its operation. -/
theorem exec_faultCause {i : Instr} (hcfg : s.cfg.WellFormed) (hr : s.run = .running) (h : exec i s = .next t)
    (hf : t.run = .faulted rec) : FaultCause s (encode i) i.op rec := by
  cases i with
  | lw =>
    obtain ⟨ea, hb, rfl⟩ := accessMemory_faulted (op := .LW) hr h hf
    exact .lw ea hb
  | lhu => exact lhu_faultCause hr h hf
  | sw =>
    obtain ⟨ea, hb, rfl⟩ := accessMemory_faulted (op := .SW) hr h hf
    exact .sw ea hb
  | syscall => exact syscallService_faultCause hcfg hr h hf
  | _ => exact absurd hf (not_faulted_of_run_eq hr (exec_keeps_run (by simp [Instr.op]) h))

/-- A word without an operation ends in the DecodeAnomaly, whichever handler rejects it (60 R243). -/
theorem runWord_of_opOf_unrecognized {w : Word} (h : opOf w = .UNRECOGNIZED) (s : State) :
    runWord w s = .next (s.anomaly .decodeAnomaly w none) := by
  cases hdec : decode w with
  | instr i => exact absurd hdec (decode_ne_instr_of_unrecognized h i)
  | unrecognizedFunct => rw [runWord, hdec]
  | unrecognizedOpcode => rw [runWord, hdec]

theorem runWord_faultCause {w : Word} (hcfg : s.cfg.WellFormed) (hr : s.run = .running) (h : runWord w s = .next t)
    (hf : t.run = .faulted rec) : FaultCause s w (opOf w) rec := by
  obtain hun | ⟨i, hdec, henc, -⟩ := decode_cases w
  · cases (runWord_of_opOf_unrecognized hun s).symm.trans h
    obtain ⟨hstrict, rfl⟩ := anomaly_faulted hr hf
    exact hun ▸ .unrecognized hstrict
  · rw [← op_of_decode hdec, ← henc]
    exact exec_faultCause hcfg hr ((runWord_of_decode hdec s).symm.trans h) hf

/-- A step faults at the fetch, or in the execute phase by a cause of the operation at `pc`. -/
theorem step_faultCause (hcfg : s.cfg.WellFormed) (h : step s = .next t) (hf : t.run = .faulted rec) :
    (s.inBounds s.pc 4 = false ∧ rec = memoryFault .fetch s.pc none s.pc 4) ∨
      FaultCause s.advance (s.mem.readWord s.pc) (opOf (s.mem.readWord s.pc)) rec := by
  obtain ⟨hrun, ⟨-, rfl⟩ | ⟨-, hb, rfl⟩ | ⟨-, -, hword, -⟩⟩ := step_cases h
  · cases hf
  · cases hf
    exact .inl ⟨hb, rfl⟩
  · exact .inr (runWord_faultCause (s := s.advance) hcfg hrun hword hf)

end

/-- Settles O17: each cause is of one kind of fault, and is the one that kind's clause asks for. -/
theorem faultKindsHaveTheirCauses : Obligations.FaultKindsHaveTheirCauses := by
  intro s t rec hcfg h hf
  obtain ⟨-, -, hw⟩ := step_faulted h hf
  refine ⟨hw, ?_⟩
  obtain ⟨hb, rfl⟩ | hcause := step_faultCause hcfg h hf
  · exact ⟨fun _ => ⟨⟨s.pc, 4, rfl, rfl, hb⟩, .inl ⟨rfl, hb⟩⟩, nofun, nofun, nofun, nofun⟩
  generalize s.mem.readWord s.pc = word at hcause ⊢
  generalize opOf word = op at hcause ⊢
  cases hcause with
  | lw ea hb => exact ⟨fun _ => ⟨⟨ea, 4, rfl, rfl, hb⟩, .inr (.inl ⟨rfl, .inl rfl⟩)⟩, nofun, nofun, nofun, nofun⟩
  | lhu ea hmode hb =>
    exact ⟨fun _ => ⟨⟨ea, 2, rfl, rfl, hb⟩, .inr (.inl ⟨rfl, .inr (.inl ⟨rfl, hmode⟩)⟩)⟩, nofun, nofun, nofun, nofun⟩
  | sw ea hb => exact ⟨fun _ => ⟨⟨ea, 4, rfl, rfl, hb⟩, .inr (.inr ⟨rfl, rfl⟩)⟩, nofun, nofun, nofun, nofun⟩
  | printString a h4 hmode hb =>
    exact ⟨fun _ => ⟨⟨a, 1, rfl, rfl, hb⟩, .inr (.inl ⟨rfl, .inr (.inr ⟨rfl, h4, hmode⟩)⟩)⟩, nofun, nofun, nofun, nofun⟩
  | unrecognized hstrict => exact ⟨nofun, fun _ => ⟨hstrict, rfl⟩, nofun, nofun, nofun⟩
  | lhuUnimplemented hmode => exact ⟨nofun, nofun, fun _ => .inl ⟨rfl, hmode, rfl⟩, nofun, nofun⟩
  | printStringUnimplemented h4 hmode => exact ⟨nofun, nofun, fun _ => .inr ⟨rfl, h4, hmode, rfl⟩, nofun, nofun⟩
  | noValue rest h5 hin => exact ⟨nofun, nofun, nofun, fun _ => ⟨rfl, h5, rest, hin⟩, nofun⟩
  | unknownService hstrict hunknown => exact ⟨nofun, nofun, nofun, nofun, fun _ => ⟨hstrict, rfl, rfl, hunknown⟩⟩

/-! ### The order of the checks -/

/-- The step of an unrecognized word reports the DecodeAnomaly, as an event or as a fault by `STRICT_DECODE`, and nothing
else is looked at (60 R249). -/
theorem step_reports_decodeAnomaly {s : State} {w : Word} (hfetch : FetchesWord s w) (hop : opOf w = .UNRECOGNIZED) :
    ∃ t, step s = .next t ∧ (t.events = s.events ++ [.anomaly .decodeAnomaly s.pc w none] ∨
      ∃ rec, t.run = .faulted rec ∧ rec.error = .decodeAnomaly) := by
  refine ⟨_, (step_of_fetches hfetch).trans (runWord_of_opOf_unrecognized hop s.advance), ?_⟩
  cases hstrict : s.cfg.strictDecode with
  | false =>
    rw [anomaly_lax (s := s.advance) hstrict, advance_pcCur]
    exact .inl rfl
  | true =>
    rw [anomaly_strict (s := s.advance) hstrict]
    exact .inr ⟨_, rfl, rfl⟩

/-- Settles O21: each check's own rule says what happens whatever the later checks would find. -/
theorem checksRunInTheirOrder : Obligations.ChecksRunInTheirOrder := by
  refine ⟨fun s hr hp => ⟨_, step_halts_at_tp hr hp, rfl⟩, fun s hr hp hb => ?_, fun s w => step_reports_decodeAnomaly,
    fun rt rs imm s hmode => ⟨_, _, exec_lhu_of_fault hmode rt rs imm, rfl, rfl⟩, fun g s h4 hmode => ?_, fun s t h => ?_⟩
  · exact ⟨_, _, step_faults_at_fetch hr hp (of_decide_eq_false hb), rfl, rfl, rfl⟩
  · rw [exec_syscall, service_printString _ h4]
    exact ⟨_, _, servicePrintString_of_fault _ hmode, rfl, rfl⟩
  · obtain hev | ⟨e, hev, -⟩ := stepAppendsAtMostOneEvent s t h <;> simp [hev]

end Sys2Proof.Machine
end

section
/-!
PROOFS. The obligations of reset, the step and runs (spec/70_reset_and_hazards.md): the step (R283 to R288), what ends a run
(R289, R290), and the reset state with its invariants along every run (R280, R281).
-/
namespace Sys2Proof.Machine

/-! ### The step -/

/-- Settles O9: the step runs the fetched word after the advance, and a word that decodes is its instruction. -/
theorem stepRunsTheDecodedInstruction : Obligations.StepRunsTheDecodedInstruction := fun s _ _ hfetch hdec =>
  (step_of_fetches hfetch).trans (runWord_of_decode hdec s.advance)

/-- Settles O11: out of bounds the step is the fetch fault at `pc`; in bounds the fetch_unit reads the word, byte by byte. -/
theorem fetchOutOfBoundsFaults : Obligations.FetchOutOfBoundsFaults := by
  refine ⟨fun s hr hp hb => ⟨_, step_faults_at_fetch hr hp hb, faultTaken_raise s _⟩, fun s hb => ?_⟩
  rw [fetchUnit_word ((inBounds_iff s s.pc 4).mpr hb), readWord_eq]

/-! ### What a step makes of the run state -/

/-- An execute phase leaves `run` as it is or takes a fault (70 R288). -/
theorem effect_run {s t : State} (he : Effect s t) : t.run = s.run ∨ ∃ rec, t = s.raise rec := by
  cases he with
  | stay | jump | store | event => exact .inl rfl
  | reg rd v | link rd v => exact .inl (setX_run s rd v)
  | read v rest => exact .inl (setX_run { s with input := rest } syscallReg v)
  | fault rec => exact .inr ⟨rec, rfl⟩

/-- A step halts at TP; off TP it leaves the core running or faulted. -/
theorem step_run {s t : State} (h : step s = .next t) :
    (s.pc = s.tp ∧ t.run = .halted) ∨ (s.pc ≠ s.tp ∧ (t.run = .running ∨ ∃ rec, t.run = .faulted rec)) := by
  obtain ⟨hrun, ⟨hp, rfl⟩ | ⟨hp, -, rfl⟩ | ⟨hp, -, -, heffect⟩⟩ := step_cases h
  · exact .inl ⟨hp, rfl⟩
  · exact .inr ⟨hp, .inr ⟨_, rfl⟩⟩
  · obtain hkeep | ⟨rec, rfl⟩ := effect_run heffect
    · exact .inr ⟨hp, .inl (hkeep.trans hrun)⟩
    · exact .inr ⟨hp, .inr ⟨rec, rfl⟩⟩

/-- Settles O10: at TP the step is the halt, and a step off TP ends running or faulted. -/
theorem haltExactlyWhenPcEqualsTp : Obligations.HaltExactlyWhenPcEqualsTp := by
  refine ⟨fun s hr hp => ⟨s.halt, step_halts_at_tp hr hp, rfl, rfl, rfl, rfl, fun _ => rfl, fun _ => rfl, rfl, rfl⟩,
    fun s t h => ?_⟩
  obtain ⟨hp, ht⟩ | ⟨hp, ht | ⟨rec, ht⟩⟩ := step_run h <;> simp [hp, ht]

/-- Settles O15: a step ends in one of three ways, and an execute phase that writes `run` is the one shared fault. -/
theorem runEndsOnlyAtTpOrByFault : Obligations.RunEndsOnlyAtTpOrByFault := by
  refine ⟨fun s t h => ?_, fun i s t h => ?_⟩
  · obtain ⟨hp, ht⟩ | ⟨hp, ht | ⟨rec, ht⟩⟩ := step_run h
    · exact .inr (.inl ⟨ht, hp⟩)
    · exact .inl ht
    · exact .inr (.inr ⟨rec, ht, hp⟩)
  · obtain hkeep | ⟨rec, rfl⟩ := effect_run (exec_effect h)
    · exact .inl hkeep
    · exact .inr ⟨rec, rfl, faultTaken_raise s rec⟩

/-! ### Runs that end and runs that do not -/

/-- A state that steps to itself stays there for any number of steps. -/
theorem coreRun_of_step_self (M : Host.Core) {s : M.State} (h : M.step s = .next s) (n : Nat) : M.run n s = .next s := by
  induction n with
  | zero => rfl
  | succ n ih => rw [Host.Core.run, h]; exact ih

/-- Settles O22: the jump puts `pc` back to where the fetch has advanced it from, so the step gives the same state. -/
theorem jumpToItselfRunsForEver : Obligations.JumpToItselfRunsForEver := by
  intro s w target hfetch hdec htarget
  have hself : step s = .next s := by
    rw [stepRunsTheDecodedInstruction s w _ hfetch hdec, exec_j, show jumpTarget target = s.pc from htarget]
    rfl
  exact ⟨fun _ => .step hself, coreRun_of_step_self core hself⟩

theorem finished_iff (s : State) : s.finished = true ↔ s.run ≠ .running := by
  unfold State.finished
  cases s.run <;> simp

/-- A running core steps, or waits for an answer that the host may give (60 R258, R259). -/
theorem transition_of_running {s : State} (hr : s.run = .running) : ∃ t, Transition s t := by
  obtain ⟨t, h⟩ | ⟨hwait, -, -, -, -, hanswer⟩ := runningCoreStepsUnlessAwaitingHost s hr
  · exact ⟨t, .step h⟩
  · obtain ⟨t, h⟩ := hanswer .noValue
    exact ⟨t, .answered .noValue hwait h⟩

/-- The host answers a waiting core only, and that one has not finished. -/
theorem running_of_transition {s t : State} (h : Transition s t) : s.run = .running := by
  cases h with
  | step h => exact (step_cases h).1
  | answered a _ h => exact (step_cases h).1

/-- Where no run from a state is infinite, one reaches the end. -/
theorem reaches_finished_of_acc {s : State} (h : Acc (fun t s => Transition s t) s) :
    ∃ t, Reaches s t ∧ t.finished = true := by
  induction h with
  | intro s _ ih =>
    by_cases hr : s.run = .running
    · obtain ⟨t, hst⟩ := transition_of_running hr
      obtain ⟨u, htu, hu⟩ := ih t hst
      exact ⟨u, .step hst htu, hu⟩
    · exact ⟨s, .here s, (finished_iff s).mpr hr⟩

/-- Settles O23: a state from which not every run ends has an infinite one. -/
theorem runIsInfiniteOrEndsFinished : Obligations.RunIsInfiniteOrEndsFinished := by
  refine ⟨fun s => transition_of_running, fun s t hf h => (finished_iff s).mp hf (running_of_transition h), fun s _ => ?_⟩
  by_cases hacc : Acc (fun t s => Transition s t) s
  · exact .inr (reaches_finished_of_acc hacc)
  · exact .inl (not_acc_iff_exists_descending_chain.mp hacc)

/-! ### Reset with a program -/

/-- The loader's result is the reset state with the image and TP (70 R280, R281). -/
theorem eq_of_boot {c : Config} {ws : List Word} {s : State} (h : State.boot c ws = some s) :
    s = { State.resetWith c with mem := Memory.loadWords [] 0 ws, tp := BitVec.ofNat 32 (4 * ws.length) } := by
  rw [State.boot, if_pos ((boot_starts_iff c ws).mp ⟨s, h⟩)] at h
  exact (Option.some.inj h).symm

/-- Settles O28: registers by R34, TP by the loader's check, and memory as the loader's writes into zeros. -/
theorem bootGivesTheResetValues : Obligations.BootGivesTheResetValues := by
  intro c ws s hc h
  obtain ⟨htp, -, -⟩ := boot_tp_cfg hc h
  obtain rfl := eq_of_boot h
  refine ⟨fun r hr => (resetWith_x c r).trans (if_neg hr), (resetWith_x c 29).trans (if_pos rfl), rfl, htp, rfl, rfl,
    fun i k hi hk => ?_, fun a ha => readByte_loadWords_outside [] ws (.inr (by omega))⟩
  have hbyte := readByte_loadWords_inside [] 0 ws i k hi hk
  rwa [Nat.zero_add, Nat.mul_sub] at hbyte

/-! ### The invariants along a run -/

/-- What every step and every answer of the host keeps, a run keeps. -/
theorem reaches_keeps {P : State → Prop} (hstep : ∀ s t, P s → step s = .next t → P t)
    (hanswer : ∀ s a, P s → P (s.answer a)) {s t : State} (h : Reaches s t) (hs : P s) : P t := by
  induction h with
  | here => exact hs
  | step hst _ ih =>
    cases hst with
    | step hnext => exact ih (hstep _ _ hs hnext)
    | answered a _ hnext => exact ih (hstep _ _ (hanswer _ a hs) hnext)

/-- The stop invariant does not read the host's answers. -/
@[simp] theorem withInput_stopInv (s : State) (l : List HostAnswer) :
    ({ s with input := l } : State).StopInv ↔ s.StopInv := Iff.rfl

/-- The loaded image is canonical and lies below MEM_SIZE, and register 0 is reset to 0. -/
theorem boot_inv {c : Config} {ws : List Word} {s : State} (hc : c.WellFormed) (h : State.boot c ws = some s) : s.Inv := by
  obtain ⟨-, htp, -⟩ := boot_tp_cfg hc h
  have hfit : 4 * ws.length ≤ c.memSize := (boot_starts_iff c ws).mp ⟨s, h⟩
  have hbelow : (Memory.loadWords [] 0 ws).below c.memSize := below_loadWords (List.forall_mem_nil _) ws (by omega)
  obtain rfl := eq_of_boot h
  exact ⟨hc, wf_loadWords reset_mem_wf 0 ws, hbelow, htp, fun _ => rfl⟩

/-- A loaded program has emitted nothing. -/
theorem boot_stopInv {c : Config} {ws : List Word} {s : State} (h : State.boot c ws = some s) : s.StopInv := by
  obtain rfl := eq_of_boot h
  exact (stopInv_running_iff rfl).mpr ⟨List.forall_mem_nil _, List.forall_mem_nil _⟩

/-- Settles O27: the loaded state meets both invariants, neither reads the host's answers, and every step keeps them. -/
theorem everyReachedStateMeetsBothInvariants : Obligations.EveryReachedStateMeetsBothInvariants := by
  intro c ws answers s t hc hboot hreach
  exact ⟨reaches_keeps machineInvariantKeptByStep (fun s _ => (withInput_inv s _).mpr) hreach
      ((withInput_inv s answers).mpr (boot_inv hc hboot)),
    reaches_keeps stopInvariantKeptByStep (fun s _ => (withInput_stopInv s _).mpr) hreach
      ((withInput_stopInv s answers).mpr (boot_stopInv hboot))⟩

end Sys2Proof.Machine
end
